-- ==== Sys2Proof/Word.lean ====
section
/-! DEFINITION. The value types of the block: bytes, 16-bit words, messages, buffer offsets. -/

namespace Sys2Proof

/-- `u8` (00_scope.md R10): an input symbol and the content of a buffer cell. -/
abbrev Byte := BitVec 8

/-- `u16` (00_scope.md R10): a channel value, the accumulator, a checksum. -/
abbrev Word := BitVec 16

/-- The Decoded Message: 14 channel values in channel order (30_encoding.md R60, R62). -/
abbrev Message := Vector Word 14

/-- An offset into the buffer, 0 to 31 (20_memory.md R40): no other offset can be expressed (R46). -/
abbrev Addr := Fin 32

/-- Which of the fifteen 16-bit words of a frame is read: slot `k` starts at the even offset `2k + 2`,
so slot `c` ≤ 13 is channel `c` and slot 14 is the checksum (20_memory.md R45, R46). -/
abbrev WordSlot := Fin 15

end Sys2Proof
end

