-- ==== Sys2Proof/Config.lean ====
section
/-! DEFINITION. The hard-wired parameters of 00_scope.md R5 (none is configurable, 92_eei_decisions.md D11) and
the one value the spec leaves free. -/

namespace Sys2Proof.Config

/-- `FRAME_LEN` (R5): bytes in a frame, cells in the buffer. -/
abbrev frameLen : Nat := 32

/-- `SYNC` (R5): value of frame byte 0, the only byte that leaves Seeking. -/
abbrev sync : Byte := 0x20#8

/-- `CK_LEN` (R5): number of leading frame bytes the checksum covers. -/
abbrev ckLen : Nat := 30

/-- `CK_INIT` (R5): initial value of the accumulator. -/
abbrev ckInit : Word := 0xFFFF#16

/-- `CK_OFF` (R5): offset of the checksum's low byte. -/
abbrev ckOff : Nat := 30

/-- `NCH` (R5): number of channels. -/
abbrev nch : Nat := 14

/-- `PAY_OFF` (R5): offset of channel 0's low byte. -/
abbrev payOff : Nat := 2

/-- `LEN_SAMPLE` (R5): byte 1 of the reference sample; no rule of the decoder reads it, only the stream item
`FRAME` of 30_encoding.md R71 does. -/
abbrev lenSample : Byte := 0x40#8

/-- The parameters fit together (R6): 1 (sync) + 1 (byte 1) + 2 x 14 (payload) + 2 (checksum) = 32, `CK_LEN` =
`FRAME_LEN` - 2 = `CK_OFF`, and the last channel's high byte is the last checksummed one, at offset 29. -/
abbrev Consistent : Prop :=
  1 + 1 + 2 * nch + 2 = frameLen ∧
  ckLen = frameLen - 2 ∧ ckLen = ckOff ∧
  payOff + 2 * nch - 1 = 29 ∧ payOff + 2 * nch - 1 = ckLen - 1

/-- FREE VALUE (assumption log 8): what `out_ch` carries in hardware step `t` when `out_valid` = 0 there;
93_implementation_defined.md U9, 92_eei_decisions.md D4: any value. -/
opaque freeOutCh : Nat → Message

end Sys2Proof.Config
end

