-- ==== Sys2Proof/Syntax.lean ====
section
/-! DEFINITION. Syntax: the rows of spec/opcode_table.json as one inductive, and the data the selection of an
operation works on. -/

namespace Sys2Proof

/-- The two states of the frame state machine (10_state.md R26). -/
inductive Mode where
  | seeking
  | collecting
  deriving DecidableEq, Repr

/-- The fields of a frame (30_encoding.md R61, 20_memory.md R41). -/
structure Frame where
  /-- byte 0 -/
  sync  : Byte
  /-- byte 1, `LEN` -/
  len   : Byte
  /-- bytes 2..29, `CH0` to `CH13` -/
  ch    : Message
  /-- bytes 30..31 -/
  cksum : Word
  deriving DecidableEq, Repr

/-- One constructor per row of spec/opcode_table.json. The operands are those the operation's rule names. -/
inductive Instr where
  /-- `RESET` (70_reset_and_hazards.md R140): no operands. -/
  | reset
  /-- `IDLE` (40_feed_and_seeking.md R84): no operands. -/
  | idle
  /-- `SEEK_SYNC` (R82): the fed byte, necessarily `0x20`. -/
  | seekSync (b : Byte)
  /-- `SEEK_SKIP` (R83): the fed byte, any of the other 255 values. -/
  | seekSkip (b : Byte)
  /-- `COLLECT_STORE` (41_collecting.md R90): the offset `i` = `index` before the step, and the fed byte. -/
  | collectStore (i : Addr) (b : Byte)
  /-- `COLLECT_EMIT` (R92): the completing byte. -/
  | collectEmit (b : Byte)
  /-- `COLLECT_DROP` (R93): the completing byte. -/
  | collectDrop (b : Byte)
  /-- `FRAME` (30_encoding.md R61, R71): the 256-bit frame format, as the stream item whose 32 steps feed its 32
  bytes. -/
  | frame (f : Frame)
  deriving DecidableEq, Repr

/-- The seven operations of 30_encoding.md R67, in the table's row order. -/
inductive Op where
  | reset
  | idle
  | seekSync
  | seekSkip
  | collectStore
  | collectEmit
  | collectDrop
  deriving DecidableEq, Repr

/-- The quantities that select the operation of one step: the fields of the selection word `W` (R73). -/
structure Sel where
  /-- `W[16]`, meaningful only in the completing step -/
  ckOk    : Bool
  /-- `W[15]` -/
  rst     : Bool
  /-- `W[14]` -/
  inValid : Bool
  /-- `W[13]` -/
  mode    : Mode
  /-- `W[12:8]`, `index` before the step -/
  index   : Addr
  /-- `W[7:0]` -/
  inByte  : Byte
  deriving DecidableEq, Repr

/-- One presentation of the input ports (00_scope.md R9). -/
structure Input where
  rst     : Bool
  inValid : Bool
  inByte  : Byte
  deriving DecidableEq, Repr

/-- What the caller has lined up (assumption log 1): one presentation of the ports, or a `FRAME` item that
stands for the 32 presentations of its bytes, one a step (30_encoding.md R71, assumption log 3). -/
inductive Item where
  | present (inp : Input)
  | frame (f : Frame)
  deriving DecidableEq, Repr

/-- The items of a stream script (30_encoding.md R71). -/
inductive ScriptItem where
  /-- `XX` -/
  | byte (b : Byte)
  /-- `n*XX` -/
  | rep (n : Nat) (b : Byte)
  /-- `IDLE` -/
  | idle
  /-- `RESET` -/
  | reset
  /-- `FRAME(c0, ..., c13)` -/
  | frame (c : Message)
  /-- `FRAMEL(l; c0, ..., c13)` -/
  | framel (l : Byte) (c : Message)
  /-- `BAD(k, m; FRAMEL(l; c0, ..., c13))`; with `l` = `0x40` it is `BAD(k, m; FRAME(...))` -/
  | bad (k : Addr) (m : Byte) (l : Byte) (c : Message)
  deriving DecidableEq, Repr

/-- Why a byte string is no encoding. -/
inductive DecodeError where
  /-- Neither the 3 bytes of a selection word nor the 32 bytes of a frame (30_encoding.md R60, R70, R73). -/
  | notAFormat (length : Nat)
  /-- Bits 23..17 of a 3-byte selection word are not zero: `W` has 17 bits (R73). -/
  | bitsAboveSelectionWord
  /-- A 32-byte string whose byte 0 is not `SYNC` (R61: `match` `0x20`, `mask` `0xFF`). -/
  | noSyncMarker
  deriving DecidableEq, Repr

/-- What decoding a byte string gives. -/
inductive Decoded where
  | ok (i : Instr)
  | rejected (e : DecodeError)
  deriving DecidableEq, Repr

end Sys2Proof
end

