-- ==== Sys2Proof/WellFormed.lean ====
section
/-! DEFINITION. Which instruction terms the selection of 30_encoding.md R67 can produce. -/

namespace Sys2Proof

/-- `SYNC` is the one checked field of the frame format (30_encoding.md R61); every other value is legal (R69). -/
def Frame.wf (f : Frame) : Bool := f.sync == Config.sync

/-- The operand conditions of R82 (`b == 0x20`), R83 (`b != 0x20`), R90 and R73 (`index <= 30`) and R61. -/
def Instr.wf : Instr → Bool
  | .reset            => true
  | .idle             => true
  | .seekSync b       => b == Config.sync
  | .seekSkip b       => b != Config.sync
  | .collectStore i _ => decide (i.val ≤ 30)
  | .collectEmit _    => true
  | .collectDrop _    => true
  | .frame f          => f.wf

end Sys2Proof
end

