-- ==== Sys2Proof/Decode.lean ====
section
/-! DEFINITION. Decoding and encoding.

Two fixed formats are decoded (30_encoding.md R60, R73): the 17-bit selection word `W` of one step, laid out in
three bytes, low byte first, and the 256-bit frame `F`, its 32 bytes in stream order (assumption log 4).
`decodeSel` is the prose selection of R67, on fields; `Op.mask`, `Op.pattern` and `Op.cond` are the match/mask rows
of R73, and `encode` is written from those rows. -/

namespace Sys2Proof

/-! ### Byte order (20_memory.md R42) -/

/-- The low byte of a word. -/
def loByte (w : Word) : Byte := w.extractLsb' 0 8

/-- The high byte of a word. -/
def hiByte (w : Word) : Byte := w.extractLsb' 8 8

/-- `{hi, lo}`, "equivalently" `zext_16(lo) +16 (zext_16(hi) * 256)`: the word whose low byte stands at the lower
offset (R45). -/
def wordOf (lo hi : Byte) : Word := lo.zeroExtend 16 + hi.zeroExtend 16 * 256#16

/-- A word as its two bytes in stream order, low byte first (R42). -/
def leBytes (w : Word) : List Byte := [loByte w, hiByte w]

/-- `b[0] + 256*b[1] + 256^2*b[2] + ...` (30_encoding.md R61). -/
def leNat : List Byte → Nat
  | []      => 0
  | b :: bs => b.toNat + 256 * leNat bs

/-- The first `n` bytes of a number, low byte first. -/
def bytesOfNat : Nat → Nat → List Byte
  | 0, _     => []
  | n + 1, w => BitVec.ofNat 8 w :: bytesOfNat n (w / 256)

/-- The message packed in one number, `M[16c+15 : 16c] = out_ch[c]` (30_encoding.md R62). -/
def packWords : List Word → Nat
  | []      => 0
  | w :: ws => w.toNat + 65536 * packWords ws

/-! ### The frame format (30_encoding.md R61) -/

/-- The 32 bytes of a frame in stream order: byte 0 is the first byte fed. -/
def Frame.bytes (f : Frame) : List Byte :=
  f.sync :: f.len :: (f.ch.toList.flatMap leBytes ++ leBytes f.cksum)

/-- The fields of the frame whose byte `k` is `byteAt k`: channel `c` is bytes `2*(c+1)` and `2*(c+1)+1`. -/
def Frame.ofByteAt (byteAt : Nat → Byte) : Frame where
  sync  := byteAt 0
  len   := byteAt 1
  ch    := Vector.ofFn fun c : Fin 14 =>
    wordOf (byteAt (Config.payOff + 2 * c.val)) (byteAt (Config.payOff + 2 * c.val + 1))
  cksum := wordOf (byteAt Config.ckOff) (byteAt (Config.ckOff + 1))

/-- The fields of a 32-byte string. -/
def Frame.ofBytes (bs : List Byte) : Frame := Frame.ofByteAt fun k => bs.getD k 0

/-! ### The selection word (30_encoding.md R73) -/

/-- `W[13]`: Seeking = 0, Collecting = 1 (92_eei_decisions.md D19). -/
def Mode.toBit : Mode → Bool
  | .seeking    => false
  | .collecting => true

/-- The inverse of `Mode.toBit`. -/
def Mode.ofBit : Bool → Mode
  | false => .seeking
  | true  => .collecting

/-- `W` from its fields: `{ck_ok, rst, in_valid, mode, index, in_byte}`. -/
def Sel.toWord (x : Sel) : BitVec 17 :=
  (BitVec.ofBool x.ckOk).zeroExtend 17 <<< 16 ||| (BitVec.ofBool x.rst).zeroExtend 17 <<< 15 |||
  (BitVec.ofBool x.inValid).zeroExtend 17 <<< 14 ||| (BitVec.ofBool x.mode.toBit).zeroExtend 17 <<< 13 |||
  (BitVec.ofFin (w := 5) x.index).zeroExtend 17 <<< 8 ||| x.inByte.zeroExtend 17

/-- The fields of `W`. -/
def Sel.ofWord (w : BitVec 17) : Sel where
  ckOk    := w.getLsbD 16
  rst     := w.getLsbD 15
  inValid := w.getLsbD 14
  mode    := Mode.ofBit (w.getLsbD 13)
  index   := (w.extractLsb' 8 5).toFin
  inByte  := w.extractLsb' 0 8

/-- Operation selection: the table of 30_encoding.md R67, evaluated top to bottom. -/
def decodeSel (x : Sel) : Instr :=
  if x.rst then .reset
  else if !x.inValid then .idle
  else match x.mode with
    | .seeking =>
      if x.inByte = Config.sync then .seekSync x.inByte else .seekSkip x.inByte
    | .collecting =>
      if x.index.val ≤ 30 then .collectStore x.index x.inByte
      else if x.ckOk then .collectEmit x.inByte
      else .collectDrop x.inByte

/-- The instruction a selection word stands for; all 2^17 words stand for one (R73). -/
def decodeWord (w : BitVec 17) : Instr := decodeSel (Sel.ofWord w)

/-- The seven operations, row by row. -/
def Op.all : List Op :=
  [.reset, .idle, .seekSync, .seekSkip, .collectStore, .collectEmit, .collectDrop]

/-- The `mask` column of R73. -/
def Op.mask : Op → BitVec 17
  | .reset        => 0x08000#17
  | .idle         => 0x0C000#17
  | .seekSync     => 0x0E0FF#17
  | .seekSkip     => 0x0E000#17
  | .collectStore => 0x0E000#17
  | .collectEmit  => 0x1FF00#17
  | .collectDrop  => 0x1FF00#17

/-- The `match` column of R73. -/
def Op.pattern : Op → BitVec 17
  | .reset        => 0x08000#17
  | .idle         => 0x00000#17
  | .seekSync     => 0x04020#17
  | .seekSkip     => 0x04000#17
  | .collectStore => 0x06000#17
  | .collectEmit  => 0x17F00#17
  | .collectDrop  => 0x07F00#17

/-- The `cond` column of R73: "`in_byte != 0x20`" and "`index <= 30`". -/
def Op.cond : Op → BitVec 17 → Bool
  | .reset, _        => true
  | .idle, _         => true
  | .seekSync, _     => true
  | .seekSkip, w     => w.extractLsb' 0 8 != Config.sync
  | .collectStore, w => decide ((w.extractLsb' 8 5).toNat ≤ 30)
  | .collectEmit, _  => true
  | .collectDrop, _  => true

/-- "A row applies when `(W AND mask) == match` and the row's `cond`, if any, holds" (R73). -/
def Op.applies (o : Op) (w : BitVec 17) : Bool := (w &&& o.mask) == o.pattern && o.cond w

/-- The bits of `W` a row looks at, its operands' among them: `mask` and the operand fields of the row. -/
def Op.seen : Op → BitVec 17
  | .reset        => 0x08000#17
  | .idle         => 0x0C000#17
  | .seekSync     => 0x0E0FF#17
  | .seekSkip     => 0x0E0FF#17
  | .collectStore => 0x0FFFF#17
  | .collectEmit  => 0x1FFFF#17
  | .collectDrop  => 0x1FFFF#17

/-- The conditions of one row of 30_encoding.md R67 as its columns give them (`index` 0 in Seeking, 1..30 and 31 in
Collecting, which hold at every step boundary, 10_state.md R25). -/
abbrev Op.selects (o : Op) (x : Sel) : Prop :=
  match o with
  | .reset        => x.rst = true
  | .idle         => x.rst = false ∧ x.inValid = false
  | .seekSync     => x.rst = false ∧ x.inValid = true ∧ x.mode = .seeking ∧ x.index = 0 ∧ x.inByte = Config.sync
  | .seekSkip     => x.rst = false ∧ x.inValid = true ∧ x.mode = .seeking ∧ x.index = 0 ∧ x.inByte ≠ Config.sync
  | .collectStore => x.rst = false ∧ x.inValid = true ∧ x.mode = .collecting ∧ 1 ≤ x.index.val ∧ x.index.val ≤ 30
  | .collectEmit  => x.rst = false ∧ x.inValid = true ∧ x.mode = .collecting ∧ x.index.val = 31 ∧ x.ckOk = true
  | .collectDrop  => x.rst = false ∧ x.inValid = true ∧ x.mode = .collecting ∧ x.index.val = 31 ∧ x.ckOk = false

/-- The row of the selection table an instruction belongs to; the `FRAME` row "is not an operation" (R73). -/
def Instr.op? : Instr → Option Op
  | .reset            => some .reset
  | .idle             => some .idle
  | .seekSync _       => some .seekSync
  | .seekSkip _       => some .seekSkip
  | .collectStore _ _ => some .collectStore
  | .collectEmit _    => some .collectEmit
  | .collectDrop _    => some .collectDrop
  | .frame _          => none

/-! ### Bytes to instructions -/

/-- The three bytes of a selection word, low byte first. -/
def wordBytes (w : BitVec 17) : List Byte :=
  [w.extractLsb' 0 8, w.extractLsb' 8 8, w.extractLsb' 16 8]

/-- The selection word of three bytes, low byte first. -/
def wordOfBytes (b0 b1 b2 : Byte) : BitVec 17 :=
  b0.zeroExtend 17 ||| b1.zeroExtend 17 <<< 8 ||| b2.zeroExtend 17 <<< 16

/-- The instruction of a byte string: three bytes are a selection word, 32 bytes starting with `SYNC` a frame;
every other string is rejected by name. -/
def decode (bs : List Byte) : Decoded :=
  match bs with
  | [b0, b1, b2] =>
    if b2.toNat ≤ 1 then .ok (decodeWord (wordOfBytes b0 b1 b2))
    else .rejected .bitsAboveSelectionWord
  | _ =>
    if bs.length ≠ Config.frameLen then .rejected (.notAFormat bs.length)
    else if bs.getD 0 0 ≠ Config.sync then .rejected .noSyncMarker
    else .ok (.frame (Frame.ofBytes bs))

/-- The bytes of an instruction, from the rows of R73 (`match` with the operands in their fields) and the frame
format of R61. Bits a row does not look at are 0. -/
def encode : Instr → List Byte
  | .reset            => wordBytes Op.reset.pattern
  | .idle             => wordBytes Op.idle.pattern
  | .seekSync b       => wordBytes ((Op.seekSync.pattern &&& 0x1FF00#17) ||| b.zeroExtend 17)
  | .seekSkip b       => wordBytes (Op.seekSkip.pattern ||| b.zeroExtend 17)
  | .collectStore i b => wordBytes (Op.collectStore.pattern ||| (BitVec.ofFin (w := 5) i).zeroExtend 17 <<< 8 ||| b.zeroExtend 17)
  | .collectEmit b    => wordBytes (Op.collectEmit.pattern ||| b.zeroExtend 17)
  | .collectDrop b    => wordBytes (Op.collectDrop.pattern ||| b.zeroExtend 17)
  | .frame f          => f.bytes

/-- Whether a table row of `nbits` bits is a row of the selection table (17 bits, so 16 or 24 in whole bytes) or
the `FRAME` row (whose `mask` has 8 bits and whose format has 256). -/
def isStepRow (nbits : Nat) : Bool := 8 < nbits && nbits ≤ 32

/-- The bytes of a table row whose first `nbits` bits are `w` and whose later bits are 0: a selection word in
three bytes, a frame in 32. -/
def tableBytes (nbits w : Nat) : List Byte :=
  bytesOfNat (if isStepRow nbits then 3 else Config.frameLen) (w % 2 ^ nbits)

/-- The instruction the decoder reads from a table row's word. -/
def decodeTableWord (nbits w : Nat) : Option Instr :=
  match decode (tableBytes nbits w) with
  | .ok i       => some i
  | .rejected _ => none

end Sys2Proof
end

