-- ==== Sys2Proof/Machine/State.lean ====
section
/-! DEFINITION. The state of one decoder as plain data, the reasons a step can stop, and the state after reset. -/

namespace Sys2Proof.Machine

/-- The buffer `buf[0..31]` (10_state.md R22) as the list of its cells that differ from the reset content
`0x00` (R35), addresses strictly rising: the canonical form `Memory.wf`. -/
abbrev Memory := List Host.Cell

/-- The complete state of one decoder is `mode`, `index`, `acc`, `buf` (10_state.md R20). The last two fields are
the model's own: what the caller will present and what it has been given (assumption logs 1 and 2); no operation
of the block reads either. -/
structure State where
  /-- the state of the frame state machine (10_state.md R26) -/
  mode    : Mode
  /-- count of bytes of the collection in progress, the next write offset; 5 bits (10_state.md R24) -/
  index   : Fin 32
  /-- running checksum of the collection in progress (10_state.md R28) -/
  acc     : Word
  /-- the frame under construction (10_state.md R22) -/
  buf     : Memory
  /-- MODEL'S OWN: the items the caller still has to present, the next one first -/
  pending : List Item
  /-- MODEL'S OWN: the output of every hardware step so far, the oldest first (92_eei_decisions.md D13) -/
  outputs : List (Option Message)
  deriving DecidableEq, Repr

/-- The block raises nothing: "No step has a fault outcome" (60_exceptions.md R120). So there is no reason to
fault, and no claim about a fault can be made. -/
inductive Fault where
  deriving DecidableEq, Repr

/-- Refusals. -/
inductive Refusal where
  /-- Raised by an arm of `exec` whose instruction has no meaning yet; no arm raises it. Safe. -/
  | notModelled (mnemonic : String)
  deriving DecidableEq, Repr

/-- The state after RESET (10_state.md R35, 70_reset_and_hazards.md R141): Seeking, index 0, accumulator
`0xFFFF`, every cell `0x00`. The model's own fields are empty: nothing presented, nothing given out. -/
def State.reset : State where
  mode    := .seeking
  index   := 0
  acc     := Config.ckInit
  buf     := []
  pending := []
  outputs := []

end Sys2Proof.Machine
end

