-- ==== Sys2Proof/Machine/Ops.lean ====
section
/-! DEFINITION. The named operations over the buffer and the registers. -/

namespace Sys2Proof.Machine

/-! ### The buffer (20_memory.md R44, R45, R49) -/

/-- What a cell that is not listed reads as: the reset content (10_state.md R35). -/
def Memory.unlisted : Byte := 0x00#8

/-- What the list says about address `a`. -/
def Memory.lookupAt : Memory → Nat → Byte
  | [], _          => Memory.unlisted
  | (k, v) :: m, a => if k = a then v else Memory.lookupAt m a

/-- `buf[a]`, `MemRead(a, 1)`: the load of one byte (20_memory.md R45). -/
def Memory.read (m : Memory) (a : Addr) : Byte := Memory.lookupAt m a.val

/-- Put a cell at its place among cells of other addresses. -/
def Memory.insertCell (k : Nat) (v : Byte) : Memory → Memory
  | []          => [(k, v)]
  | (j, w) :: m => if k < j then (k, v) :: (j, w) :: m else (j, w) :: Memory.insertCell k v m

/-- `buf[a] <- v`, `MemWrite(a, 1, v)`: the only store (20_memory.md R44). It keeps the canonical form. -/
def Memory.write (m : Memory) (a : Addr) (v : Byte) : Memory :=
  let rest : Memory := m.filter fun c => c.1 != a.val
  if v = Memory.unlisted then rest else Memory.insertCell a.val v rest

/-- The canonical form from address `lo` on: addresses strictly rising and below 32, no listed `0x00`. -/
def Memory.wfFrom : Nat → Memory → Bool
  | _, []           => true
  | lo, (k, v) :: m => decide (lo ≤ k) && decide (k < Config.frameLen) && v != Memory.unlisted && Memory.wfFrom (k + 1) m

/-- The canonical form of the buffer: equal buffers are equal lists. -/
def Memory.wf (m : Memory) : Bool := Memory.wfFrom 0 m

/-- The 32 cells in offset order. -/
def Memory.toBytes (m : Memory) : List Byte := (List.finRange 32).map m.read

/-! ### The registers -/

/-- `emit o`: the output of this hardware step (00_scope.md R13), handed to the caller. -/
def State.emit (o : Option Message) (s : State) : State := { s with outputs := s.outputs ++ [o] }

/-- `buf[a] <- b`. -/
def State.store (a : Addr) (b : Byte) (s : State) : State := { s with buf := s.buf.write a b }

/-- `acc <- acc -16 zext_16(b)` (42_checksum.md R101), 16-bit modular. -/
def State.accumulate (b : Byte) (s : State) : State := { s with acc := s.acc - b.zeroExtend 16 }

/-- `acc <- 0xFFFF`: the start of every checksum pass (42_checksum.md R100, R101). -/
def State.restartAcc (s : State) : State := { s with acc := Config.ckInit }

/-- `(mode, index) <- (m, i)`, "the block's analogue of `pc <- target`" (00_scope.md R13). -/
def State.goto (m : Mode) (i : Fin 32) (s : State) : State := { s with mode := m, index := i }

/-- The return to Seeking that ends every collection, whatever the outcome (41_collecting.md R91 step 4), and the
nearest the block has to taking an exception: a drop "saves nothing", `mode` becomes Seeking, `index` 0 and `acc`
`0xFFFF`, and the next fed byte is handled by the Seeking rules (60_exceptions.md R124). There is no return from
it (R125). -/
def State.returnToSeeking (s : State) : State := (s.goto .seeking 0).restartAcc

/-- The part of the completing step that both outcomes share: steps 1 and 4 of 41_collecting.md R91. -/
def State.completeFrame (b : Byte) (s : State) : State := (s.store 31 b).returnToSeeking

end Sys2Proof.Machine
end

