-- ==== Sys2Proof/Machine/Operands.lean ====
section
/-! DEFINITION. Word assembly and the little-endian word extractor. -/

namespace Sys2Proof.Machine

/-- The offset of a word slot's low byte: `2k + 2`, even, 2 to 30 (20_memory.md R46). -/
def WordSlot.low (k : WordSlot) : Addr := ⟨Config.payOff + 2 * k.val, by have := k.isLt; simp only [Config.payOff]; omega⟩

/-- The offset of a word slot's high byte. -/
def WordSlot.high (k : WordSlot) : Addr := ⟨Config.payOff + 2 * k.val + 1, by have := k.isLt; simp only [Config.payOff]; omega⟩

/-- `MemRead(a, 2)` at `a` = `2k + 2`: `{buf[a+1], buf[a]}` (20_memory.md R45, 30_encoding.md R66). -/
def Memory.readWord (m : Memory) (k : WordSlot) : Word := wordOf (m.read (WordSlot.low k)) (m.read (WordSlot.high k))

/-- The word slot of a channel. -/
def channelSlot (c : Fin 14) : WordSlot := c.castSucc

/-- The word slot of the checksum: offset 30. -/
def cksumSlot : WordSlot := 14

/-- `extract(buf)` (43_extraction.md R110): channel `c` is the word at offset `2*(c+1)`. -/
def extract (m : Memory) : Message := Vector.ofFn fun c : Fin 14 => m.readWord (channelSlot c)

/-- `rx = {b, s.buf[30]}`: the received checksum in the completing step (42_checksum.md R103). -/
def rxWord (s : State) (b : Byte) : Word := wordOf (s.buf.read 30) b

end Sys2Proof.Machine
end

