-- ==== Sys2Proof/Machine/Flags.lean ====
section
/-! DEFINITION. The checksum. The block has no flags (10_state.md R30); its one computed condition is `ck_ok`,
which exists only inside the completing step. -/

namespace Sys2Proof.Machine

/-- `cksum(f)` (42_checksum.md R100): from `0xFFFF`, subtract each byte's unsigned value, modulo 2^16. -/
def cksum (bs : List Byte) : Word := bs.foldl (fun a b => a - b.zeroExtend 16) Config.ckInit

/-- The additive form of 42_checksum.md R105: from `0x0000`, add each byte with 16-bit wraparound. -/
def addsum (bs : List Byte) : Word := bs.foldl (fun a b => a + b.zeroExtend 16) 0

/-- The sum of the bytes as a natural number (10_state.md R29, 42_checksum.md R104). -/
def byteSum (bs : List Byte) : Nat := (bs.map BitVec.toNat).sum

/-- The bytes of the buffer the checksum covers: offsets 0 to 29 (42_checksum.md R100). -/
def Memory.checksummed (m : Memory) : List Byte := m.toBytes.take Config.ckLen

/-- `ck_ok = (s.acc == rx)`, all 16 bits compared (42_checksum.md R103). -/
def ckOk (s : State) (b : Byte) : Bool := s.acc == rxWord s b

end Sys2Proof.Machine
end

