-- ==== Sys2Proof/Machine/Collecting.lean ====
section
/-! DEFINITION. The meanings of the Collecting transitions (41_collecting.md). -/

namespace Sys2Proof.Machine

/-- `COLLECT_STORE(b)` at offset `i` (R90): `buf[i] <- b`; bytes at offsets up to 29 are subtracted from `acc`;
`index <- i + 1`; `mode` Collecting; emit None. `i` is at most 30 whenever the operation is selected (R67). -/
def opCollectStore (i : Addr) (b : Byte) (s : State) : State :=
  let t := s.store i b
  let u := if i.val ≤ 29 then t.accumulate b else t
  (u.goto .collecting (i + 1)).emit none

/-- `COLLECT_EMIT(b)` (R92): the completing step with the message of the 32 cells as they stand after the write
of the completing byte (R91 step 3, 20_memory.md R52). -/
def opCollectEmit (b : Byte) (s : State) : State :=
  let t := s.completeFrame b
  t.emit (some (extract t.buf))

/-- `COLLECT_DROP(b)` (R93): the completing step with nothing emitted and nothing recorded. -/
def opCollectDrop (b : Byte) (s : State) : State := (s.completeFrame b).emit none

/-- The meaning of `COLLECT_STORE`. -/
def execCollectStore (i : Addr) (b : Byte) (s : State) : Host.Outcome State Fault Refusal := .next (opCollectStore i b s)

/-- The meaning of `COLLECT_EMIT`. -/
def execCollectEmit (b : Byte) (s : State) : Host.Outcome State Fault Refusal := .next (opCollectEmit b s)

/-- The meaning of `COLLECT_DROP`. -/
def execCollectDrop (b : Byte) (s : State) : Host.Outcome State Fault Refusal := .next (opCollectDrop b s)

end Sys2Proof.Machine
end

