-- ==== Sys2Proof/Machine/Seeking.lean ====
section
/-! DEFINITION. The meanings of the Seeking transitions and of a step with no byte (40_feed_and_seeking.md). -/

namespace Sys2Proof.Machine

/-- `SEEK_SYNC(b)` (R82): `buf[0] <- b`, `index <- 1`, `mode <- Collecting`, `acc <- 0xFFFF -16 zext_16(b)`,
emit None. -/
def opSeekSync (b : Byte) (s : State) : State :=
  (((s.store 0 b).goto .collecting 1).restartAcc.accumulate b).emit none

/-- `SEEK_SKIP(b)` (R83): no write, emit None; the byte is discarded. -/
def opSeekSkip (_b : Byte) (s : State) : State := s.emit none

/-- `IDLE` (R84): no write, emit None. -/
def opIdle (s : State) : State := s.emit none

/-- The meaning of `SEEK_SYNC`. -/
def execSeekSync (b : Byte) (s : State) : Host.Outcome State Fault Refusal := .next (opSeekSync b s)

/-- The meaning of `SEEK_SKIP`. -/
def execSeekSkip (b : Byte) (s : State) : Host.Outcome State Fault Refusal := .next (opSeekSkip b s)

/-- The meaning of `IDLE`. -/
def execIdle (s : State) : Host.Outcome State Fault Refusal := .next (opIdle s)

end Sys2Proof.Machine
end

