-- ==== Sys2Proof/Machine/System.lean ====
section
/-! DEFINITION. The meaning of the one system operation, RESET (70_reset_and_hazards.md R140, 60_exceptions.md R127). -/

namespace Sys2Proof.Machine

/-- `buf[k] <- 0x00` for k = 0..31: every cell at its reset content, so none is listed. -/
def State.clearBuffer (s : State) : State := { s with buf := [] }

/-- `RESET` (R140): Seeking, index 0, all cells `0x00`, `acc` `0xFFFF`, emit None. It touches neither what the
caller will present nor what it has been given (assumption log 9). -/
def opReset (s : State) : State := s.clearBuffer.returnToSeeking.emit none

/-- The meaning of `RESET`. -/
def execReset (s : State) : Host.Outcome State Fault Refusal := .next (opReset s)

end Sys2Proof.Machine
end

