-- ==== Sys2Proof/Machine/Feed.lean ====
section
/-! DEFINITION. The source's operation `feed`, the step of 40_feed_and_seeking.md on given inputs, and the meaning
of a `FRAME` item. -/

namespace Sys2Proof.Machine

/-- `feed(byte)` (40_feed_and_seeking.md R81): `mode` first, the byte's value only in Seeking. -/
def feed (b : Byte) (s : State) : State :=
  match s.mode with
  | .seeking => if b = Config.sync then opSeekSync b s else opSeekSkip b s
  | .collecting =>
    if s.index.val ≤ 30 then opCollectStore s.index b s
    else if ckOk s b then opCollectEmit b s
    else opCollectDrop b s

/-- `step(s, rst, in_valid, in_byte)` (R80): RESET before IDLE before `feed` (60_exceptions.md R123). -/
def stepInput (inp : Input) (s : State) : State :=
  if inp.rst then opReset s
  else if !inp.inValid then opIdle s
  else feed inp.inByte s

/-- The fold of the step over a finite list of inputs (00_scope.md R8). -/
def stepInputs (inps : List Input) (s : State) : State := inps.foldl (fun t inp => stepInput inp t) s

/-- Feed bytes one after another, the first first. -/
def feedAll (bs : List Byte) (s : State) : State := bs.foldl (fun t b => feed b t) s

/-- The inputs of a step that feeds a byte (30_encoding.md R71 item `XX`). -/
def feedInput (b : Byte) : Input := { rst := false, inValid := true, inByte := b }

/-- The items of a caller that feeds the given bytes, one a step. -/
def feedItems (bs : List Byte) : List Item := bs.map fun b => .present (feedInput b)

/-- Put items before those the caller has lined up. -/
def State.presentFirst (items : List Item) (s : State) : State := { s with pending := items ++ s.pending }

/-- The step that a `FRAME` item begins with (30_encoding.md R61, R71). The item stands for 32 steps and a step is
exactly one call of `feed` (00_scope.md R8): this one feeds byte 0, and the other 31 bytes are what the caller
presents in the 31 steps that follow (assumption log 3). -/
def opFrame (f : Frame) (s : State) : State := feed f.sync (s.presentFirst (feedItems (f.bytes.drop 1)))

/-- The meaning of a `FRAME` item. -/
def execFrame (f : Frame) (s : State) : Host.Outcome State Fault Refusal := .next (opFrame f s)

end Sys2Proof.Machine
end

