-- ==== Sys2Proof/Machine/Dispatch.lean ====
section
/-! DEFINITION. One arm per constructor of Instr. -/

namespace Sys2Proof.Machine

def exec (i : Instr) (s : State) : Host.Outcome State Fault Refusal :=
  match i with
  | .reset => Sys2Proof.Machine.execReset s
  | .idle => Sys2Proof.Machine.execIdle s
  | .seekSync b => Sys2Proof.Machine.execSeekSync b s
  | .seekSkip b => Sys2Proof.Machine.execSeekSkip b s
  | .collectStore a b => Sys2Proof.Machine.execCollectStore a b s
  | .collectEmit b => Sys2Proof.Machine.execCollectEmit b s
  | .collectDrop b => Sys2Proof.Machine.execCollectDrop b s
  | .frame f => Sys2Proof.Machine.execFrame f s

end Sys2Proof.Machine
end

