-- ==== Sys2Proof/Machine/Script.lean ====
section
/-! DEFINITION. The stream script of 30_encoding.md R71 and the frame constructor of R72, which build stimuli;
the block itself is receive-only. -/

namespace Sys2Proof.Machine

/-- `frame_of(l, c)` (R72): header, `LEN`, little-endian payload and the checksum of the first 30 bytes. -/
def frameOf (l : Byte) (c : Message) : Frame :=
  { sync := Config.sync, len := l, ch := c
    cksum := cksum (Config.sync :: l :: c.toList.flatMap leBytes) }

/-- The inputs of a step that feeds nothing (R71 item `IDLE`); `in_byte` is ignored (R84). -/
def idleInput : Input := { rst := false, inValid := false, inByte := 0 }

/-- The inputs of a RESET step (R71 item `RESET`); the other inputs are ignored (70_reset_and_hazards.md R140). -/
def resetInput : Input := { rst := true, inValid := false, inByte := 0 }

/-- XOR the byte at offset `k` of a byte string with a mask (R71 `BAD`). -/
def flipAt (k : Nat) (m : Byte) (bs : List Byte) : List Byte := bs.modify k (fun b => b ^^^ m)

end Sys2Proof.Machine

namespace Sys2Proof

open Machine in
/-- The steps a script item stands for (R71, the expansion table). -/
def ScriptItem.expand : ScriptItem → List Input
  | .byte b      => [feedInput b]
  | .rep n b     => List.replicate n (feedInput b)
  | .idle        => [idleInput]
  | .reset       => [resetInput]
  | .frame c     => (frameOf Config.lenSample c).bytes.map feedInput
  | .framel l c  => (frameOf l c).bytes.map feedInput
  | .bad k m l c => (flipAt k.val m (frameOf l c).bytes).map feedInput

end Sys2Proof

namespace Sys2Proof.Machine

/-- A script, executed left to right (R71). -/
def runScript (items : List ScriptItem) (s : State) : State := stepInputs (items.flatMap ScriptItem.expand) s

end Sys2Proof.Machine
end

