-- ==== Sys2Proof/Machine/Fetch.lean ====
section
/-! DEFINITION. What the step performs next: the next item the caller presents, and the operation R67 selects. -/

namespace Sys2Proof.Machine

/-- The selection word's fields for inputs `inp` presented to state `s` (30_encoding.md R73). -/
def selOf (s : State) (inp : Input) : Sel where
  ckOk    := ckOk s inp.inByte
  rst     := inp.rst
  inValid := inp.inValid
  mode    := s.mode
  index   := s.index
  inByte  := inp.inByte

/-- The instruction to run and the state with the presented item taken from the caller's list. A caller that
presents nothing gives an IDLE step (92_eei_decisions.md D3, assumption log 1). -/
def fetch (s : State) : Instr × State :=
  match s.pending with
  | []                  => (decodeSel (selOf s idleInput), s)
  | .present inp :: rest => (decodeSel (selOf s inp), { s with pending := rest })
  | .frame f :: rest    => (.frame f, { s with pending := rest })

/-- `acc` such that the comparison with `rx` comes out as wanted; unchanged where it already does. -/
def accFor (want : Bool) (s : State) (b : Byte) : Word :=
  if ckOk s b = want then s.acc else if want then rxWord s b else ~~~ (rxWord s b)

/-- A state and a presented item for which R67 selects the row that `x` lies in: the inputs of `x` presented next
and, of the block's state, what that row tests: nothing for RESET and IDLE, `mode` in Seeking, `mode` and `index` in
Collecting, and in the completing step `acc` such that `ck_ok` is as `x` says. -/
def State.presentSel (x : Sel) (s : State) : State :=
  let t : State :=
    { s with pending := .present { rst := x.rst, inValid := x.inValid, inByte := x.inByte } :: s.pending }
  if x.rst || !x.inValid then t
  else match x.mode with
    | .seeking    => { t with mode := .seeking }
    | .collecting =>
      { t with
        mode  := .collecting
        index := x.index
        acc   := if x.index.val ≤ 30 then t.acc else accFor x.ckOk t x.inByte }

/-- Present the instruction of a table row's word next (assumption log 7). -/
def State.presentTableWord (nbits w : Nat) (s : State) : State :=
  if isStepRow nbits then s.presentSel (Sel.ofWord (BitVec.ofNat 17 (w % 2 ^ nbits)))
  else { s with pending := .frame (Frame.ofBytes (tableBytes nbits w)) :: s.pending }

end Sys2Proof.Machine
end

