-- ==== Sys2Proof/Machine/Ports.lean ====
section
/-! DEFINITION. The output ports (00_scope.md R9) as a view of the outputs the model records. -/

namespace Sys2Proof.Machine

/-- `out_valid` and `out_ch[0..13]` in one step. -/
structure OutPorts where
  outValid : Bool
  outCh    : Message
  deriving DecidableEq, Repr

/-- The ports in hardware step `t` whose output is `o`: `out_ch` is the message when one is emitted, any value
otherwise (92_eei_decisions.md D4, 93_implementation_defined.md U9, assumption log 8). -/
def outPorts (t : Nat) : Option Message → OutPorts
  | some m => { outValid := true, outCh := m }
  | none   => { outValid := false, outCh := Config.freeOutCh t }

/-- The ports in hardware step `t` (the first step is step 0) of the run that led to `s`. -/
def State.portsAt (t : Nat) (s : State) : Option OutPorts := (s.outputs[t]?).map (outPorts t)

end Sys2Proof.Machine
end

