-- ==== Sys2Proof/Safety.lean ====
section
/-! DEFINITION. The terms the statements use: runs, the invariant of the step boundaries, reachability, what two
states agree on, and what a run of inputs emits. -/

namespace Sys2Proof.Machine

/-- `n` steps one after another. -/
def runSteps : Nat → State → Host.Outcome State Fault Refusal
  | 0, s     => .next s
  | n + 1, s =>
    match step s with
    | .next t    => runSteps n t
    | .fault r   => .fault r
    | .refused r => .refused r

/-- The value of `acc` after the byte at offset `i - 1` of a collection: 10_state.md R29. -/
def accAfter (m : Memory) (i : Nat) : Word := Config.ckInit - BitVec.ofNat 16 (byteSum (m.toBytes.take (min i Config.ckLen)))

/-- The invariant at every step boundary: the buffer in canonical form; in Seeking `index` 0 (R25) and `acc` `0xFFFF`
(R29); in Collecting 1 ≤ `index` ≤ 31 (R25, the bound 31 being `index`'s type), `acc` as R29 says, and the sync
marker in cell 0 (R36). -/
abbrev State.Inv (s : State) : Prop :=
  s.buf.wf = true ∧
  (s.mode = .seeking → s.index = 0 ∧ s.acc = Config.ckInit) ∧
  (s.mode = .collecting →
    1 ≤ s.index.val ∧ s.buf.read 0 = Config.sync ∧ s.acc = accAfter s.buf s.index.val)

/-- States of runs: reset with any items to be presented, then steps (92_eei_decisions.md D13). -/
inductive Reachable : State → Prop where
  | start (items : List Item) : Reachable { State.reset with pending := items }
  | step {s t : State} : Reachable s → Sys2Proof.Machine.step s = .next t → Reachable t

/-- What 10_state.md R33 lets two states differ in: the stale cells, those at offsets `index` and above. -/
def State.Agree (s t : State) : Prop :=
  s.mode = t.mode ∧ s.index = t.index ∧ s.acc = t.acc ∧
  ∀ k : Addr, k.val < s.index.val → s.buf.read k = t.buf.read k

/-- `s` with the caller's list as given: what an operation is applied to once its item is taken. -/
def State.withPending (items : List Item) (s : State) : State := { s with pending := items }

/-- The items of a caller that presents the given inputs, one a step. -/
def inputItems (inps : List Input) : List Item := inps.map .present

/-- How many of the given inputs feed a byte: those of the rows SEEK_SYNC to COLLECT_DROP of 30_encoding.md R67. -/
def fedCount (inps : List Input) : Nat := (inps.filter fun inp => !inp.rst && inp.inValid).length

/-- The messages among the outputs given so far, in order (92_eei_decisions.md D13). -/
def State.messages (s : State) : List Message := s.outputs.filterMap id

/-- What a collection gives out in its 32 steps when its last step gives `o` (41_collecting.md R96). -/
def collectionOutputs (o : Option Message) : List (Option Message) := List.replicate 31 none ++ [o]

/-- The four items of 10_state.md R20, that is the block without the model's own fields. -/
def State.SameBlock (s t : State) : Prop :=
  s.mode = t.mode ∧ s.index = t.index ∧ s.acc = t.acc ∧ ∀ k : Addr, s.buf.read k = t.buf.read k

/-- `F`, the content of the buffer as one number (30_encoding.md R61). -/
def Memory.frameNumber (m : Memory) : Nat := leNat m.toBytes

end Sys2Proof.Machine

namespace Sys2Proof

/-- A frame that a decoder in Seeking emits: header and checksum are right (43_extraction.md R114). -/
def Frame.Valid (f : Frame) : Prop := f.sync = Config.sync ∧ f.cksum = Machine.cksum (f.bytes.take Config.ckLen)

end Sys2Proof
end

