-- ==== Sys2Proof/Certificates/Slice0/Obligations.lean ====
section
/-! DEFINITION. The statements, one `def Obligations.<Name> : Prop` each. Those about an operation say what
`exec` answers for every state (the completion and the frame), and then when a step runs it. -/

open Sys2Proof Sys2Proof.Machine

/-! ### Encoding and selection -/

/-- 30_encoding.md §1, §7: no operand bit of any instruction is dropped by its encoding. The three-byte layout of a
selection word is the model's choice (log 4). -/
def Obligations.DecodeEncodeRoundTrip : Prop :=
  ∀ i : Instr, i.wf = true → decode (encode i) = .ok i

/-- 30_encoding.md §1, §7: decoding gives a well-formed instruction only; encoding it again gives the frame's own
bytes, or the selection word's bits that its row looks at, with the others 0. That a selection word is three bytes,
low byte first, with bits 23..17 zero, and that the encoder writes 0 where a row does not look, is the model's
choice (log 4): the spec gives `W` no byte layout. -/
def Obligations.EncodeRestoresTheSeenBits : Prop :=
  ∀ (bs : List Byte) (i : Instr), decode bs = .ok i →
    i.wf = true ∧
    (i.op? = none → encode i = bs) ∧
    (∀ o, i.op? = some o → ∃ w, bs = wordBytes w ∧ o.applies w = true ∧ encode i = wordBytes (w &&& o.seen))

/-- 30_encoding.md R73: "the seven rows are mutually exclusive and cover all 2^17 values of W", and they select what
the prose table of R67, which the decoder follows, selects. -/
def Obligations.SelectionRowsPartitionTheWords : Prop :=
  ∀ w : BitVec 17, ∃ o : Op, (decodeWord w).op? = some o ∧ ∀ o' : Op, o'.applies w = true ↔ o' = o

/-- 30_encoding.md R68: at every step boundary (`State.Inv`) and for every input exactly one row of R67 applies, and
it is the row of the selected operation. -/
def Obligations.ExactlyOneRowAtEveryBoundary : Prop :=
  ∀ (s : State) (inp : Input), s.Inv →
    ∃ o : Op, (decodeSel (selOf s inp)).op? = some o ∧ ∀ o' : Op, o'.selects (selOf s inp) ↔ o' = o

/-- A step runs the decoded instruction: the item presented next, as bytes, decodes to the instruction that the
step performs on the state with that item taken. The model's choices in it: that a caller who presents nothing gives
an IDLE step (log 1), that a FRAME item is run as an instruction, its first byte in this step (log 3), and the byte
layout of the selection word (log 4). A FRAME item with another byte 0 decodes to nothing; what its step does is in
FrameItemIsItsThirtyTwoBytes. -/
def Obligations.StepRunsTheDecodedInstruction : Prop :=
  ∀ s : State,
    (∀ inp rest i, s.pending = .present inp :: rest → decode (wordBytes (selOf s inp).toWord) = .ok i →
      step s = exec i (s.withPending rest)) ∧
    (∀ f rest i, s.pending = .frame f :: rest → decode f.bytes = .ok i → step s = exec i (s.withPending rest)) ∧
    (s.pending = [] → step s = exec .idle s)

/-- A table row's word placed by `withFetchWord` is what the very next step runs; the buffer, the outputs and the
caller's other items are left alone (log 7). -/
def Obligations.FetchWordIsRunNext : Prop :=
  ∀ (s : State) (nbits w : Nat) (i : Instr), decodeTableWord nbits w = some i →
    ∃ t : State, step (s.withFetchWord nbits w) = exec i t ∧ t.buf = s.buf ∧ t.outputs = s.outputs ∧ t.pending = s.pending

/-- Selection words written out from the rows of 30_encoding.md R73 decode to what they stand for. Their layout in
three bytes, low byte first, is the model's choice (log 4). -/
def Obligations.WrittenOutWordsDecode : Prop :=
  decode [0x00#8, 0x80#8, 0x00#8] = .ok .reset ∧
  decode [0x20#8, 0x40#8, 0x00#8] = .ok (.seekSync 0x20#8) ∧
  decode [0x40#8, 0x7D#8, 0x00#8] = .ok (.collectStore 29 0x40#8) ∧
  decode [0xF3#8, 0x7F#8, 0x01#8] = .ok (.collectEmit 0xF3#8) ∧
  decode [0xF3#8, 0x7F#8, 0x00#8] = .ok (.collectDrop 0xF3#8)

/-! ### What each operation does -/

/-- 40_feed_and_seeking.md R82 (`b` is `0x20`, the one byte the rule allows). That `exec` does the same in states that
do not select SEEK_SYNC is the model's choice (log 6). -/
def Obligations.SeekSyncStartsACollection : Prop :=
  ∀ s : State,
    (∃ t, exec (.seekSync 0x20#8) s = .next t ∧
      t.buf.read 0 = 0x20#8 ∧ (∀ k : Addr, k ≠ 0 → t.buf.read k = s.buf.read k) ∧
      t.index = 1 ∧ t.mode = .collecting ∧ t.acc = 0xFFDF#16 ∧
      t.outputs = s.outputs ++ [none] ∧ t.pending = s.pending) ∧
    (∀ rest, s.mode = .seeking → s.pending = .present { rst := false, inValid := true, inByte := 0x20#8 } :: rest →
      step s = exec (.seekSync 0x20#8) (s.withPending rest))

/-- 40_feed_and_seeking.md R83: the byte is stored nowhere, and any run of such bytes changes nothing. That `exec` does
the same in states that do not select SEEK_SKIP is the model's choice (log 6). -/
def Obligations.SeekSkipDiscardsTheByte : Prop :=
  ∀ (s : State) (b : Byte), b ≠ 0x20#8 →
    (∃ t, exec (.seekSkip b) s = .next t ∧
      t.mode = s.mode ∧ t.index = s.index ∧ t.acc = s.acc ∧ t.buf = s.buf ∧
      t.outputs = s.outputs ++ [none] ∧ t.pending = s.pending) ∧
    (∀ rest, s.mode = .seeking → s.pending = .present { rst := false, inValid := true, inByte := b } :: rest →
      step s = exec (.seekSkip b) (s.withPending rest)) ∧
    (∀ bs rest, s.mode = .seeking → (∀ c ∈ bs, c ≠ 0x20#8) →
      ∃ t, runSteps bs.length (s.withPending (feedItems bs ++ rest)) = .next t ∧
        t = { s with pending := rest, outputs := s.outputs ++ List.replicate bs.length none })

/-- 40_feed_and_seeking.md R84: no write in any mode, `in_byte` ignored; and IDLE steps can be deleted from any input
sequence without changing the block's state or the messages. -/
def Obligations.IdleChangesNothing : Prop :=
  ∀ s : State,
    (∃ t, exec .idle s = .next t ∧
      t.mode = s.mode ∧ t.index = s.index ∧ t.acc = s.acc ∧ t.buf = s.buf ∧
      t.outputs = s.outputs ++ [none] ∧ t.pending = s.pending) ∧
    (∀ b rest, s.pending = .present { rst := false, inValid := false, inByte := b } :: rest →
      step s = exec .idle (s.withPending rest)) ∧
    (∀ inps : List Input, ∃ t u,
      runSteps inps.length (s.withPending (inputItems inps)) = .next t ∧
      runSteps (inps.filter fun i => i.rst || i.inValid).length
        (s.withPending (inputItems (inps.filter fun i => i.rst || i.inValid))) = .next u ∧
      t.mode = u.mode ∧ t.index = u.index ∧ t.acc = u.acc ∧ t.buf = u.buf ∧ t.messages = u.messages)

/-- 41_collecting.md R90. Two clauses are the model's choice (log 6): the offset 0, which no step boundary has in
Collecting, is the literal reading of 92_eei_decisions.md D10; and `exec` does the same in states that do not select
COLLECT_STORE at that offset. -/
def Obligations.CollectStoreStoresAndAccumulates : Prop :=
  ∀ (s : State) (i : Addr) (b : Byte), i.val ≤ 30 →
    (∃ t, exec (.collectStore i b) s = .next t ∧
      t.buf.read i = b ∧ (∀ k : Addr, k ≠ i → t.buf.read k = s.buf.read k) ∧
      (i.val ≤ 29 → t.acc = s.acc - b.zeroExtend 16) ∧ (i.val = 30 → t.acc = s.acc) ∧
      t.index.val = i.val + 1 ∧ t.mode = .collecting ∧
      t.outputs = s.outputs ++ [none] ∧ t.pending = s.pending) ∧
    (∀ rest, s.mode = .collecting → s.index = i →
      s.pending = .present { rst := false, inValid := true, inByte := b } :: rest →
      step s = exec (.collectStore i b) (s.withPending rest))

/-- 41_collecting.md R92 with 43_extraction.md R110: the message is that of the buffer, channel by channel. That `exec`
emits it in states that do not select COLLECT_EMIT too (another index, or `acc` different from `{b, buf[30]}`) is the
model's choice (log 6); no step applies it there. -/
def Obligations.CollectEmitEmitsTheChannels : Prop :=
  ∀ (s : State) (b : Byte),
    (∃ t m, exec (.collectEmit b) s = .next t ∧
      t.buf.read 31 = b ∧ (∀ k : Addr, k ≠ 31 → t.buf.read k = s.buf.read k) ∧
      (∀ (c : Fin 14) (lo hi : Addr), lo.val = 2 * (c.val + 1) → hi.val = 2 * (c.val + 1) + 1 →
        (m : Message).get c = wordOf (s.buf.read lo) (s.buf.read hi)) ∧
      t.mode = .seeking ∧ t.index = 0 ∧ t.acc = 0xFFFF#16 ∧
      t.outputs = s.outputs ++ [some m] ∧ t.pending = s.pending) ∧
    (∀ rest, s.mode = .collecting → s.index = 31 → s.acc = wordOf (s.buf.read 30) b →
      s.pending = .present { rst := false, inValid := true, inByte := b } :: rest →
      step s = exec (.collectEmit b) (s.withPending rest))

/-- 41_collecting.md R93: back to Seeking, nothing emitted, nothing recorded. That `exec` does the same in states that
do not select COLLECT_DROP is the model's choice (log 6). -/
def Obligations.CollectDropIsSilent : Prop :=
  ∀ (s : State) (b : Byte),
    (∃ t, exec (.collectDrop b) s = .next t ∧
      t.buf.read 31 = b ∧ (∀ k : Addr, k ≠ 31 → t.buf.read k = s.buf.read k) ∧
      t.mode = .seeking ∧ t.index = 0 ∧ t.acc = 0xFFFF#16 ∧
      t.outputs = s.outputs ++ [none] ∧ t.pending = s.pending) ∧
    (∀ rest, s.mode = .collecting → s.index = 31 → s.acc ≠ wordOf (s.buf.read 30) b →
      s.pending = .present { rst := false, inValid := true, inByte := b } :: rest →
      step s = exec (.collectDrop b) (s.withPending rest))

/-- 70_reset_and_hazards.md R140 and 60_exceptions.md R123: from every state, whatever else is presented. That the
caller's list and the outputs given so far are left alone is the model's choice (log 9). -/
def Obligations.ResetFromEveryState : Prop :=
  ∀ s : State,
    (∃ t, exec .reset s = .next t ∧
      t.mode = .seeking ∧ t.index = 0 ∧ (∀ k : Addr, t.buf.read k = 0x00#8) ∧ t.acc = 0xFFFF#16 ∧
      t.outputs = s.outputs ++ [none] ∧ t.pending = s.pending) ∧
    (∀ v b rest, s.pending = .present { rst := true, inValid := v, inByte := b } :: rest →
      step s = exec .reset (s.withPending rest))

/-- 10_state.md R35 and 70_reset_and_hazards.md R141: the reset state is what RESET leaves. -/
def Obligations.ResetStateHasTheResetValues : Prop :=
  State.reset.mode = .seeking ∧ State.reset.index = 0 ∧ State.reset.acc = 0xFFFF#16 ∧
  (∀ k : Addr, State.reset.buf.read k = 0x00#8) ∧
  ∀ s t : State, exec .reset s = .next t →
    t.mode = State.reset.mode ∧ t.index = State.reset.index ∧ t.acc = State.reset.acc ∧ t.buf = State.reset.buf ∧
    t.outputs = s.outputs ++ [none]

/-- A `FRAME` item is 32 steps (30_encoding.md R71), each of one `feed` (00_scope.md R8). Its instruction is the first
of them, the operation that byte 0 selects, with the other 31 bytes presented next; together they do, in every state,
what the 32 bytes presented one by one do, and what the script item FRAMEL does. That the format is run as an
instruction at all is the model's choice (log 3). -/
def Obligations.FrameItemIsItsThirtyTwoBytes : Prop :=
  ∀ (f : Frame) (s : State),
    exec (.frame f) s =
      exec (decodeSel (selOf s (feedInput f.sync))) (s.withPending (feedItems (f.bytes.drop 1) ++ s.pending)) ∧
    (∃ t u o, exec (.frame f) s = .next t ∧
      t.pending = feedItems (f.bytes.drop 1) ++ s.pending ∧ t.outputs = s.outputs ++ [o] ∧
      runSteps 31 t = .next u ∧
      runSteps 32 (s.withPending (feedItems f.bytes ++ s.pending)) = .next u ∧
      u.outputs.length = s.outputs.length + 32 ∧ u.pending = s.pending) ∧
    (∀ rest, s.pending = .frame f :: rest → step s = exec (.frame f) (s.withPending rest)) ∧
    (∀ l c rest, runSteps 32 (s.withPending (.frame (frameOf l c) :: rest)) =
      .next (runScript [.framel l c] (s.withPending rest)))

/-- 30_encoding.md R61 (the `CKSUM` row) with 41_collecting.md R91 to R93: from Seeking, the instruction of a frame
starts a collection with its byte 0, and the 31 steps after it fill the buffer with its bytes, end in Seeking and emit
it on the last byte exactly when its checksum field is right. That the format is run as an instruction is the model's
choice (log 3). -/
def Obligations.FrameFromSeeking : Prop :=
  ∀ (f : Frame) (s : State), f.wf = true → s.mode = .seeking →
    ∃ t u, exec (.frame f) s = .next t ∧
      t.mode = .collecting ∧ t.index = 1 ∧ t.acc = 0xFFDF#16 ∧ t.buf.read 0 = 0x20#8 ∧
      (∀ k : Addr, k ≠ 0 → t.buf.read k = s.buf.read k) ∧
      t.outputs = s.outputs ++ [none] ∧ t.pending = feedItems (f.bytes.drop 1) ++ s.pending ∧
      runSteps 31 t = .next u ∧
      u.mode = .seeking ∧ u.index = 0 ∧ u.acc = 0xFFFF#16 ∧ u.buf.toBytes = f.bytes ∧ u.pending = s.pending ∧
      (f.cksum = cksum (f.bytes.take 30) → u.outputs = s.outputs ++ collectionOutputs (some f.ch)) ∧
      (f.cksum ≠ cksum (f.bytes.take 30) → u.outputs = s.outputs ++ collectionOutputs none)

/-! ### Checksum -/

/-- 42_checksum.md R103. -/
def Obligations.ChecksumComparison : Prop :=
  ∀ (s : State) (b : Byte),
    (ckOk s b = true ↔ s.acc = wordOf (s.buf.read 30) b) ∧
    (ckOk s b = true ↔ s.buf.read 30 = s.acc.extractLsb' 0 8 ∧ b = s.acc.extractLsb' 8 8) ∧
    (s.mode = .collecting → s.index = 31 →
      decodeSel (selOf s (feedInput b)) = if ckOk s b then .collectEmit b else .collectDrop b)

/-- 42_checksum.md R101: the complete list of writes to `acc`, over all states and inputs. The table's row for
COLLECT_STORE has offsets 1..29; that offset 0, which no step boundary has in Collecting, subtracts too is the literal
reading of 92_eei_decisions.md D10, the model's choice (log 6). -/
def Obligations.AccumulatorWritesAreTheTable : Prop :=
  ∀ (s : State) (inp : Input) (rest : List Item), s.pending = .present inp :: rest →
    ∃ t, step s = .next t ∧
      t.acc = match decodeSel (selOf s inp) with
        | .reset            => 0xFFFF#16
        | .seekSync b       => 0xFFFF#16 - b.zeroExtend 16
        | .collectStore i b => if i.val ≤ 29 then s.acc - b.zeroExtend 16 else s.acc
        | .collectEmit _    => 0xFFFF#16
        | .collectDrop _    => 0xFFFF#16
        | .seekSkip _       => s.acc
        | .idle             => s.acc
        | .frame _          => s.acc

/-- 42_checksum.md R102: in the completing step the register is the function over the buffer, so the comparison may
use either. -/
def Obligations.AccumulatorIsTheChecksumFunction : Prop :=
  ∀ s : State, s.Inv → s.mode = .collecting → s.index = 31 →
    s.acc = cksum s.buf.checksummed ∧
    ∀ b, ckOk s b = (cksum s.buf.checksummed == wordOf (s.buf.read 30) b)

/-- 42_checksum.md R104: the running value over up to 30 bytes never wraps; the compared value lies in `0xE2FC`..`0xFFDF`. -/
def Obligations.ChecksumNeverWraps : Prop :=
  (∀ bs : List Byte, bs.length ≤ 30 →
    (cksum bs).toNat + byteSum bs = 0xFFFF ∧ 0xE21D ≤ (cksum bs).toNat) ∧
  (∀ s : State, s.Inv → s.mode = .collecting → s.index = 31 →
    0xE2FC ≤ s.acc.toNat ∧ s.acc.toNat ≤ 0xFFDF ∧ 0xE2 ≤ (hiByte s.acc).toNat)

/-- 42_checksum.md R105: the additive accumulator, complemented before the comparison, gives the same result. -/
def Obligations.AdditiveChecksumIsEquivalent : Prop :=
  ∀ bs : List Byte, bs.length = 30 →
    cksum bs = 0xFFFF#16 - BitVec.ofNat 16 (byteSum bs) ∧
    cksum bs = ~~~ (BitVec.ofNat 16 (byteSum bs)) ∧
    cksum bs = ~~~ (addsum bs) ∧
    ∀ rx : Word, cksum bs = rx ↔ addsum bs + rx = 0xFFFF#16

/-- 42_checksum.md R106: a valid frame with any one bit flipped, in any of its 32 bytes, gives no message. -/
def Obligations.SingleBitErrorsAreDetected : Prop :=
  ∀ (f : Frame) (s : State) (k : Addr) (bit : Fin 8) (rest : List Item), f.Valid → s.mode = .seeking →
    ∃ t, runSteps 32 (s.withPending (feedItems (flipAt k.val (1#8 <<< bit.val) f.bytes) ++ rest)) = .next t ∧
      t.outputs = s.outputs ++ List.replicate 32 none ∧
      (k ≠ 0 → t.mode = .seeking ∧ t.index = 0)

/-- 42_checksum.md R107: the checksum depends on the sum only, and any 32 bytes that start with `0x20` and end with
`0xFFFF` minus the sum of the first 30 are emitted, whoever meant them. -/
def Obligations.OnlyTheSumIsChecked : Prop :=
  (∀ bs cs : List Byte, byteSum bs = byteSum cs → cksum bs = cksum cs) ∧
  (∀ (s : State) (bs : List Byte) (lo hi : Byte) (rest : List Item), s.mode = .seeking → bs.length = 29 →
    wordOf lo hi = 0xFFFF#16 - BitVec.ofNat 16 (byteSum (0x20#8 :: bs)) →
    ∃ t m, runSteps 32 (s.withPending (feedItems (0x20#8 :: bs ++ [lo, hi]) ++ rest)) = .next t ∧
      t.outputs = s.outputs ++ collectionOutputs (some m) ∧
      ∀ (c : Fin 14) (x y : Byte), bs[2 * c.val + 1]? = some x → bs[2 * c.val + 2]? = some y → m.get c = wordOf x y)

/-! ### Extraction and formats -/

/-- 43_extraction.md R110 and R111: lane `c` is bytes `2*(c+1)` and `2*(c+1)+1` and depends on nothing else. -/
def Obligations.ExtractLanes : Prop :=
  ∀ (m : Memory) (c : Fin 14) (lo hi : Addr), lo.val = 2 * (c.val + 1) → hi.val = 2 * (c.val + 1) + 1 →
    ((extract m).get c).toNat = (m.read lo).toNat + 256 * (m.read hi).toNat ∧
    ∀ m' : Memory, m'.read lo = m.read lo → m'.read hi = m.read hi → (extract m').get c = (extract m).get c

/-- 30_encoding.md R62: the packed message has channel `c` in bits 16c+15..16c and is bits 239..16 of the frame. -/
def Obligations.PackedMessageIsASliceOfTheFrame : Prop :=
  (∀ (m : Message) (c : Fin 14), packWords m.toList / 2 ^ (16 * c.val) % 2 ^ 16 = (m.get c).toNat) ∧
  (∀ m : Memory, packWords (extract m).toList = m.frameNumber / 2 ^ 16 % 2 ^ 224)

/-- 30_encoding.md R61: where each field of the frame stands in `F`. -/
def Obligations.FrameFieldPositions : Prop :=
  ∀ f : Frame,
    f.bytes.length = 32 ∧ leNat f.bytes < 2 ^ 256 ∧
    leNat f.bytes % 2 ^ 8 = f.sync.toNat ∧
    leNat f.bytes / 2 ^ 8 % 2 ^ 8 = f.len.toNat ∧
    (∀ c : Fin 14, leNat f.bytes / 2 ^ (16 * c.val + 16) % 2 ^ 16 = (f.ch.get c).toNat) ∧
    leNat f.bytes / 2 ^ 240 = f.cksum.toNat ∧
    ∀ (k : Nat) (b : Byte), f.bytes[k]? = some b → leNat f.bytes / 2 ^ (8 * k) % 2 ^ 8 = b.toNat

/-- 00_scope.md R6: the parameters fit together, and the frame, the checksummed bytes and the word slots of the model
are where they put them. -/
def Obligations.ParametersFitTheModel : Prop :=
  Config.Consistent ∧
  (∀ f : Frame, f.bytes.length = Config.frameLen) ∧
  (∀ m : Memory, m.toBytes.length = Config.frameLen ∧ m.checksummed.length = Config.ckLen) ∧
  (∀ c : Fin 14, (WordSlot.low (channelSlot c)).val = Config.payOff + 2 * c.val ∧
    (WordSlot.high (channelSlot c)).val < Config.ckLen) ∧
  (WordSlot.high (channelSlot 13)).val = Config.ckLen - 1 ∧
  (WordSlot.low cksumSlot).val = Config.ckOff ∧ (WordSlot.high cksumSlot).val = Config.frameLen - 1

/-! ### The whole machine -/

/-- After 60_exceptions.md R120: no step of any state, and no instruction in any state, ends in a fault or a refusal,
and a valid state is never left. The rule speaks of the steps of reachable states on an input. The rest is the model's
choice: the step of a caller that presents nothing (log 1), FRAME items and FRAME as an instruction (log 3), and states
that no run reaches, operations applied where no step selects them and ill-formed operands (log 6). -/
def Obligations.NothingRaises : Prop :=
  (∀ s : State, ∃ t, step s = .next t ∧ (s.Inv → t.Inv)) ∧
  (∀ (i : Instr) (s : State), ∃ t, exec i s = .next t)

/-- 10_state.md R25, R29: the invariant holds at reset, whatever the caller will present. -/
def Obligations.InvariantHoldsAtReset : Prop :=
  ∀ items : List Item, ({ State.reset with pending := items }).Inv

/-- 10_state.md R25, R29 (with the canonical buffer and the sync marker of R36): every step keeps the invariant. -/
def Obligations.EveryStepKeepsTheInvariant : Prop :=
  ∀ s t : State, s.Inv → step s = .next t → t.Inv

/-- 10_state.md R36: the reachable values of (`mode`, `index`, `acc`) are exactly these, with the sync marker in
cell 0 of every collection. -/
def Obligations.ReachableControlStates : Prop :=
  (∀ (md : Mode) (ix : Fin 32) (a : Word),
    (∃ s, Reachable s ∧ s.mode = md ∧ s.index = ix ∧ s.acc = a) ↔
      (md = .seeking ∧ ix = 0 ∧ a = 0xFFFF#16) ∨
      (md = .collecting ∧ 1 ≤ ix.val ∧ ∃ bs : List Byte, bs.length = min ix.val 30 - 1 ∧
        a = 0xFFFF#16 - BitVec.ofNat 16 (0x20 + byteSum bs))) ∧
  (∀ s, Reachable s → s.mode = .collecting → s.buf.read 0 = 0x20#8)

/-- The buffer stays in its one canonical form (log 5), so equal buffers are equal data. -/
def Obligations.BufferStaysCanonical : Prop :=
  (∀ s t : State, s.buf.wf = true → step s = .next t → t.buf.wf = true) ∧
  (∀ m m' : Memory, m.wf = true → m'.wf = true → m.toBytes = m'.toBytes → m = m')

/-- 10_state.md R33: two states that differ in stale cells only give the same outputs for ever. -/
def Obligations.StaleCellsCannotBeObserved : Prop :=
  ∀ (s₁ s₂ : State) (n : Nat), s₁.Agree s₂ → s₁.pending = s₂.pending →
    ∃ t₁ t₂ out, runSteps n s₁ = .next t₁ ∧ runSteps n s₂ = .next t₂ ∧
      t₁.outputs = s₁.outputs ++ out ∧ t₂.outputs = s₂.outputs ++ out ∧
      t₁.Agree t₂ ∧ t₁.pending = t₂.pending

/-- 40_feed_and_seeking.md R80, R81: a step on presented inputs, which goes through the selection word, is the `step`
and `feed` of the pseudocode; and a run is their fold (00_scope.md R8). -/
def Obligations.StepIsThePseudocode : Prop :=
  ∀ (s : State) (inps : List Input) (rest : List Item),
    runSteps inps.length (s.withPending (inputItems inps ++ rest)) = .next (stepInputs inps (s.withPending rest))

/-- 40_feed_and_seeking.md R81 and 60_exceptions.md R122: one output a step, `Some(message)` exactly when this byte
completes a frame whose checksum validates, and `out_valid` says so. -/
def Obligations.MessageExactlyWhenAFrameValidates : Prop :=
  ∀ (s : State) (inp : Input) (rest : List Item), s.pending = .present inp :: rest →
    ∃ t o, step s = .next t ∧ t.outputs = s.outputs ++ [o] ∧
      (o.isSome = true ↔
        inp.rst = false ∧ inp.inValid = true ∧ s.mode = .collecting ∧ s.index = 31 ∧
        s.acc = wordOf (s.buf.read 30) inp.inByte) ∧
      (∀ m, o = some m → m = extract (s.buf.write 31 inp.inByte)) ∧
      ∀ n, (outPorts n o).outValid = o.isSome ∧ ∀ m, o = some m → (outPorts n o).outCh = m

/-- Every step of every state, a step on a FRAME item among them (00_scope.md R8), gives out exactly one output, and
what has been given out never changes afterwards (41_collecting.md R92 d). The record of the outputs is the model's
(log 2), and so are the IDLE step of a caller that presents nothing (log 1) and the FRAME item (log 3). -/
def Obligations.OutputsOnlyGrow : Prop :=
  ∀ s t : State, step s = .next t → ∃ o, t.outputs = s.outputs ++ [o]

/-- 20_memory.md R44: every store is of one byte, at offset 0 by SEEK_SYNC and at `index` in Collecting; no other step
but RESET changes a cell. -/
def Obligations.OnlyStoreIsAtIndex : Prop :=
  ∀ (s : State) (inp : Input) (rest : List Item), s.pending = .present inp :: rest →
    ∃ t, step s = .next t ∧ ∀ k : Addr,
      t.buf.read k =
        if inp.rst then 0x00#8
        else if inp.inValid ∧ s.mode = .seeking ∧ inp.inByte = 0x20#8 ∧ k = 0 then inp.inByte
        else if inp.inValid ∧ s.mode = .collecting ∧ k = s.index then inp.inByte
        else s.buf.read k

/-- 41_collecting.md R94 and R95: in Collecting the byte's value reaches neither `mode` nor `index`, nor, before the
completing step, the output; the completing byte, `0x20` or not, leaves Seeking with index 0. -/
def Obligations.NoSyncDetectionInCollecting : Prop :=
  ∀ (s : State) (b c : Byte) (rest : List Item), s.mode = .collecting →
    ∃ t u, step (s.withPending (.present (feedInput b) :: rest)) = .next t ∧
      step (s.withPending (.present (feedInput c) :: rest)) = .next u ∧
      t.mode = u.mode ∧ t.index = u.index ∧ (s.index ≠ 31 → t.outputs = u.outputs) ∧
      (∀ k : Addr, k ≠ s.index → t.buf.read k = u.buf.read k) ∧
      (s.index = 31 → t.mode = .seeking ∧ t.index = 0 ∧ t.buf.read 31 = b)

/-- 43_extraction.md R114. -/
def Obligations.ValidFrameRoundTrip : Prop :=
  ∀ (l : Byte) (c : Message) (s : State) (rest : List Item), s.mode = .seeking →
    ∃ t, runSteps 32 (s.withPending (feedItems (frameOf l c).bytes ++ rest)) = .next t ∧
      t.outputs = s.outputs ++ List.replicate 31 none ++ [some c] ∧
      t.mode = .seeking ∧ t.index = 0 ∧ t.acc = 0xFFFF#16 ∧ t.pending = rest

/-- 40_feed_and_seeking.md R85. -/
def Obligations.SyncDetection : Prop :=
  ∀ (s : State) (bs cs : List Byte) (rest : List Item), s.mode = .seeking → (∀ b ∈ bs, b ≠ 0x20#8) → cs.length < 31 →
    ∃ t u,
      runSteps (bs.length + 1) (s.withPending (feedItems (bs ++ [0x20#8]) ++ (feedItems cs ++ rest))) = .next t ∧
      t.mode = .collecting ∧ t.index = 1 ∧ t.outputs = s.outputs ++ List.replicate (bs.length + 1) none ∧
      runSteps cs.length t = .next u ∧
      u.mode = .collecting ∧ u.index.val = cs.length + 1 ∧ u.outputs = t.outputs ++ List.replicate cs.length none

/-- 40_feed_and_seeking.md R86: a run of sync bytes of any length gives no message; only bytes 1, 33, 65, ... start a
collection. -/
def Obligations.SyncBytesOnlyGiveNoMessage : Prop :=
  cksum (List.replicate 30 0x20#8) = 0xFC3F#16 ∧
  ∀ (s : State) (n : Nat) (rest : List Item), s.mode = .seeking →
    ∃ t, runSteps n (s.withPending (feedItems (List.replicate n 0x20#8) ++ rest)) = .next t ∧
      t.outputs = s.outputs ++ List.replicate n none ∧
      (n % 32 = 0 → t.mode = .seeking) ∧
      (n % 32 ≠ 0 → t.mode = .collecting ∧ t.index.val = n % 32)

/-- 41_collecting.md R96. From Seeking a collection is one SEEK_SYNC, thirty COLLECT_STOREs and one COLLECT_EMIT or
COLLECT_DROP, whatever the bytes are. In Collecting, with IDLE steps anywhere between the bytes, the mode is left on
RESET or on the 32nd fed byte and on nothing else. Back-to-back valid frames give a message on every 32nd byte. In any
input sequence, IDLE and RESET steps included, messages are at least 32 fed bytes apart. -/
def Obligations.CollectionCadence : Prop :=
  (∀ (s : State) (bs : List Byte) (rest : List Item), s.mode = .seeking → bs.length = 31 →
    decodeSel (selOf s (feedInput 0x20#8)) = .seekSync 0x20#8 ∧
    ∃ t o, runSteps 32 (s.withPending (feedItems (0x20#8 :: bs) ++ rest)) = .next t ∧
      t.mode = .seeking ∧ t.index = 0 ∧ t.outputs = s.outputs ++ collectionOutputs o ∧
      ∀ k, 1 ≤ k → k ≤ 31 →
        ∃ u, runSteps k (s.withPending (feedItems (0x20#8 :: bs) ++ rest)) = .next u ∧
          u.mode = .collecting ∧ u.index.val = k ∧
          ∀ b, decodeSel (selOf u (feedInput b)) =
            if k ≤ 30 then .collectStore u.index b
            else if u.acc = wordOf (u.buf.read 30) b then .collectEmit b else .collectDrop b) ∧
  (∀ (s : State) (inps : List Input) (inp : Input) (rest : List Item), s.mode = .collecting →
    (∀ i ∈ inps, i.rst = false) → s.index.val + fedCount inps ≤ 31 →
    ∃ t u, runSteps inps.length (s.withPending (inputItems inps ++ .present inp :: rest)) = .next t ∧
      t.mode = .collecting ∧ t.index.val = s.index.val + fedCount inps ∧
      t.outputs = s.outputs ++ List.replicate inps.length none ∧
      step t = .next u ∧
      (u.mode = .seeking ↔ inp.rst = true ∨ inp.inValid = true ∧ t.index = 31) ∧
      (u.mode = .seeking → u.index = 0) ∧
      (inp.rst = true → u.outputs = t.outputs ++ [none])) ∧
  (∀ (s : State) (fs : List Frame) (rest : List Item), s.mode = .seeking → (∀ f ∈ fs, f.Valid) →
    ∃ t, runSteps (32 * fs.length) (s.withPending (feedItems (fs.flatMap Frame.bytes) ++ rest)) = .next t ∧
      t.mode = .seeking ∧ t.outputs = s.outputs ++ fs.flatMap fun f => collectionOutputs (some f.ch)) ∧
  (∀ (s : State) (inps : List Input) (rest : List Item), s.mode = .seeking →
    ∃ t out, runSteps inps.length (s.withPending (inputItems inps ++ rest)) = .next t ∧
      t.outputs = s.outputs ++ out ∧ out.length = inps.length ∧
      ∀ (i j : Nat) (m m' : Message), i < j → out[i]? = some (some m) → out[j]? = some (some m') →
        32 ≤ fedCount ((inps.take (j + 1)).drop (i + 1)))

/-- 41_collecting.md R97: after a drop, a valid frame, preceded by nothing but non-sync bytes, is emitted. -/
def Obligations.RecoveryAfterADrop : Prop :=
  ∀ (s : State) (b : Byte) (skips : List Byte) (l : Byte) (c : Message) (rest : List Item),
    s.mode = .collecting → s.index = 31 → s.acc ≠ wordOf (s.buf.read 30) b → (∀ x ∈ skips, x ≠ 0x20#8) →
    ∃ t, runSteps (1 + skips.length + 32)
        (s.withPending (feedItems (b :: skips ++ (frameOf l c).bytes) ++ rest)) = .next t ∧
      t.outputs = s.outputs ++ List.replicate (1 + skips.length + 31) none ++ [some c] ∧ t.mode = .seeking

/-- 70_reset_and_hazards.md R145, R151: there is no bound on resynchronization. Gap-free streams of any number of
valid frames exist that, met from some byte on by a decoder just reset, give no message at all. -/
def Obligations.NoBoundOnResynchronization : Prop :=
  ∀ n : Nat, ∃ (fs : List Frame) (k : Nat), fs.length = n + 1 ∧ (∀ f ∈ fs, f.Valid) ∧ k < 32 ∧
    ∃ t, runSteps (32 * (n + 1) - k)
        (State.reset.withPending (feedItems ((fs.flatMap Frame.bytes).drop k))) = .next t ∧
      t.messages = []
end

