-- ==== Sys2Proof/Laws/State.lean ====
section
/-! SUPPORT. One lemma per field per update of the state, so that no proof unfolds a record update. -/

namespace Sys2Proof.Machine

@[simp] theorem State.emit_mode (o : Option Message) (s : State) : (s.emit o).mode = s.mode := rfl
@[simp] theorem State.emit_index (o : Option Message) (s : State) : (s.emit o).index = s.index := rfl
@[simp] theorem State.emit_acc (o : Option Message) (s : State) : (s.emit o).acc = s.acc := rfl
@[simp] theorem State.emit_buf (o : Option Message) (s : State) : (s.emit o).buf = s.buf := rfl
@[simp] theorem State.emit_pending (o : Option Message) (s : State) : (s.emit o).pending = s.pending := rfl
@[simp] theorem State.emit_outputs (o : Option Message) (s : State) : (s.emit o).outputs = s.outputs ++ [o] := rfl

@[simp] theorem State.store_mode (a : Addr) (b : Byte) (s : State) : (s.store a b).mode = s.mode := rfl
@[simp] theorem State.store_index (a : Addr) (b : Byte) (s : State) : (s.store a b).index = s.index := rfl
@[simp] theorem State.store_acc (a : Addr) (b : Byte) (s : State) : (s.store a b).acc = s.acc := rfl
@[simp] theorem State.store_buf (a : Addr) (b : Byte) (s : State) : (s.store a b).buf = s.buf.write a b := rfl
@[simp] theorem State.store_pending (a : Addr) (b : Byte) (s : State) : (s.store a b).pending = s.pending := rfl
@[simp] theorem State.store_outputs (a : Addr) (b : Byte) (s : State) : (s.store a b).outputs = s.outputs := rfl

@[simp] theorem State.accumulate_mode (b : Byte) (s : State) : (s.accumulate b).mode = s.mode := rfl
@[simp] theorem State.accumulate_index (b : Byte) (s : State) : (s.accumulate b).index = s.index := rfl
@[simp] theorem State.accumulate_acc (b : Byte) (s : State) : (s.accumulate b).acc = s.acc - b.zeroExtend 16 := rfl
@[simp] theorem State.accumulate_buf (b : Byte) (s : State) : (s.accumulate b).buf = s.buf := rfl
@[simp] theorem State.accumulate_pending (b : Byte) (s : State) : (s.accumulate b).pending = s.pending := rfl
@[simp] theorem State.accumulate_outputs (b : Byte) (s : State) : (s.accumulate b).outputs = s.outputs := rfl

@[simp] theorem State.restartAcc_mode (s : State) : (s.restartAcc).mode = s.mode := rfl
@[simp] theorem State.restartAcc_index (s : State) : (s.restartAcc).index = s.index := rfl
@[simp] theorem State.restartAcc_acc (s : State) : (s.restartAcc).acc = Config.ckInit := rfl
@[simp] theorem State.restartAcc_buf (s : State) : (s.restartAcc).buf = s.buf := rfl
@[simp] theorem State.restartAcc_pending (s : State) : (s.restartAcc).pending = s.pending := rfl
@[simp] theorem State.restartAcc_outputs (s : State) : (s.restartAcc).outputs = s.outputs := rfl

@[simp] theorem State.goto_mode (m : Mode) (i : Fin 32) (s : State) : (s.goto m i).mode = m := rfl
@[simp] theorem State.goto_index (m : Mode) (i : Fin 32) (s : State) : (s.goto m i).index = i := rfl
@[simp] theorem State.goto_acc (m : Mode) (i : Fin 32) (s : State) : (s.goto m i).acc = s.acc := rfl
@[simp] theorem State.goto_buf (m : Mode) (i : Fin 32) (s : State) : (s.goto m i).buf = s.buf := rfl
@[simp] theorem State.goto_pending (m : Mode) (i : Fin 32) (s : State) : (s.goto m i).pending = s.pending := rfl
@[simp] theorem State.goto_outputs (m : Mode) (i : Fin 32) (s : State) : (s.goto m i).outputs = s.outputs := rfl

@[simp] theorem State.returnToSeeking_mode (s : State) : (s.returnToSeeking).mode = .seeking := rfl
@[simp] theorem State.returnToSeeking_index (s : State) : (s.returnToSeeking).index = 0 := rfl
@[simp] theorem State.returnToSeeking_acc (s : State) : (s.returnToSeeking).acc = Config.ckInit := rfl
@[simp] theorem State.returnToSeeking_buf (s : State) : (s.returnToSeeking).buf = s.buf := rfl
@[simp] theorem State.returnToSeeking_pending (s : State) : (s.returnToSeeking).pending = s.pending := rfl
@[simp] theorem State.returnToSeeking_outputs (s : State) : (s.returnToSeeking).outputs = s.outputs := rfl

@[simp] theorem State.completeFrame_mode (b : Byte) (s : State) : (s.completeFrame b).mode = .seeking := rfl
@[simp] theorem State.completeFrame_index (b : Byte) (s : State) : (s.completeFrame b).index = 0 := rfl
@[simp] theorem State.completeFrame_acc (b : Byte) (s : State) : (s.completeFrame b).acc = Config.ckInit := rfl
@[simp] theorem State.completeFrame_buf (b : Byte) (s : State) : (s.completeFrame b).buf = s.buf.write 31 b := rfl
@[simp] theorem State.completeFrame_pending (b : Byte) (s : State) : (s.completeFrame b).pending = s.pending := rfl
@[simp] theorem State.completeFrame_outputs (b : Byte) (s : State) : (s.completeFrame b).outputs = s.outputs := rfl

@[simp] theorem State.clearBuffer_mode (s : State) : (s.clearBuffer).mode = s.mode := rfl
@[simp] theorem State.clearBuffer_index (s : State) : (s.clearBuffer).index = s.index := rfl
@[simp] theorem State.clearBuffer_acc (s : State) : (s.clearBuffer).acc = s.acc := rfl
@[simp] theorem State.clearBuffer_buf (s : State) : (s.clearBuffer).buf = [] := rfl
@[simp] theorem State.clearBuffer_pending (s : State) : (s.clearBuffer).pending = s.pending := rfl
@[simp] theorem State.clearBuffer_outputs (s : State) : (s.clearBuffer).outputs = s.outputs := rfl

@[simp] theorem State.withPending_mode (items : List Item) (s : State) : (s.withPending items).mode = s.mode := rfl
@[simp] theorem State.withPending_index (items : List Item) (s : State) : (s.withPending items).index = s.index := rfl
@[simp] theorem State.withPending_acc (items : List Item) (s : State) : (s.withPending items).acc = s.acc := rfl
@[simp] theorem State.withPending_buf (items : List Item) (s : State) : (s.withPending items).buf = s.buf := rfl
@[simp] theorem State.withPending_pending (items : List Item) (s : State) : (s.withPending items).pending = items := rfl
@[simp] theorem State.withPending_outputs (items : List Item) (s : State) : (s.withPending items).outputs = s.outputs := rfl

@[simp] theorem State.presentFirst_mode (items : List Item) (s : State) : (s.presentFirst items).mode = s.mode := rfl
@[simp] theorem State.presentFirst_index (items : List Item) (s : State) : (s.presentFirst items).index = s.index := rfl
@[simp] theorem State.presentFirst_acc (items : List Item) (s : State) : (s.presentFirst items).acc = s.acc := rfl
@[simp] theorem State.presentFirst_buf (items : List Item) (s : State) : (s.presentFirst items).buf = s.buf := rfl
@[simp] theorem State.presentFirst_pending (items : List Item) (s : State) : (s.presentFirst items).pending = items ++ s.pending := rfl
@[simp] theorem State.presentFirst_outputs (items : List Item) (s : State) : (s.presentFirst items).outputs = s.outputs := rfl

end Sys2Proof.Machine
end

