-- ==== Sys2Proof/Laws/Memory.lean ====
section
/-! SUPPORT. The buffer: a read after a write, the canonical form, and equality from equal reads. -/

namespace Sys2Proof.Machine

@[simp] theorem Memory.lookupAt_nil (a : Nat) : Memory.lookupAt [] a = 0#8 := rfl

theorem Memory.lookupAt_cons (c : Host.Cell) (m : Memory) (a : Nat) :
    Memory.lookupAt (c :: m) a = if c.1 = a then c.2 else Memory.lookupAt m a := rfl

theorem Memory.lookupAt_filter_self (m : Memory) (a : Nat) :
    Memory.lookupAt (m.filter fun c => c.1 != a) a = 0#8 := by
  induction m with
  | nil => rfl
  | cons c m ih =>
    by_cases h : c.1 = a
    · simpa [h] using ih
    · simp [h, Memory.lookupAt_cons, ih]

theorem Memory.lookupAt_filter_of_ne (m : Memory) {a b : Nat} (hab : b ≠ a) :
    Memory.lookupAt (m.filter fun c => c.1 != a) b = Memory.lookupAt m b := by
  induction m with
  | nil => rfl
  | cons c m ih =>
    by_cases h : c.1 = a
    · have : ¬ c.1 = b := by omega
      simpa [h, Memory.lookupAt_cons, this, Ne.symm hab] using ih
    · simp [h, Memory.lookupAt_cons, ih]

theorem Memory.lookupAt_insertCell (m : Memory) (k : Nat) (v : Byte) (b : Nat)
    (h : Memory.lookupAt m k = 0#8) (hk : ∀ c ∈ m, c.1 ≠ k) :
    Memory.lookupAt (Memory.insertCell k v m) b = if k = b then v else Memory.lookupAt m b := by
  induction m with
  | nil => rfl
  | cons c m ih =>
    have hc : c.1 ≠ k := hk c (by simp)
    have hm : Memory.lookupAt m k = 0#8 := by simpa [Memory.lookupAt_cons, hc] using h
    have ih := ih hm fun d hd => hk d (by simp [hd])
    unfold Memory.insertCell
    split
    · rfl
    · simp only [Memory.lookupAt_cons, ih]
      by_cases h1 : c.1 = b <;> by_cases h2 : k = b <;> simp_all

theorem Memory.lookupAt_write (m : Memory) (a : Addr) (v : Byte) (b : Nat) :
    Memory.lookupAt (m.write a v) b = if a.val = b then v else Memory.lookupAt m b := by
  unfold Memory.write
  simp only
  split
  · by_cases h : a.val = b
    · subst h; simp_all [Memory.lookupAt_filter_self, Memory.unlisted]
    · simp [h, Memory.lookupAt_filter_of_ne m (Ne.symm h)]
  · rw [Memory.lookupAt_insertCell _ _ _ _ (Memory.lookupAt_filter_self m a.val) (by simp)]
    by_cases h : a.val = b
    · simp [h]
    · simp [h, Memory.lookupAt_filter_of_ne m (Ne.symm h)]

/-- A read after a write: the value written at the same offset, what was there at every other. -/
theorem Memory.read_write (m : Memory) (a b : Addr) (v : Byte) :
    (m.write a v).read b = if a = b then v else m.read b := by
  simp [Memory.read, Memory.lookupAt_write, Fin.ext_iff]

@[simp] theorem Memory.read_write_self (m : Memory) (a : Addr) (v : Byte) : (m.write a v).read a = v := by
  simp [Memory.read_write]

theorem Memory.read_write_of_ne (m : Memory) {a b : Addr} (v : Byte) (h : b ≠ a) :
    (m.write a v).read b = m.read b := by
  simp [Memory.read_write, Ne.symm h]

@[simp] theorem Memory.read_nil (a : Addr) : Memory.read [] a = 0#8 := rfl

/-! ### The canonical form -/

@[simp] theorem Memory.wf_nil : Memory.wf [] = true := rfl

theorem Memory.wfFrom_cons (lo : Nat) (c : Host.Cell) (m : Memory) :
    Memory.wfFrom lo (c :: m) = true ↔
      lo ≤ c.1 ∧ c.1 < 32 ∧ c.2 ≠ 0#8 ∧ Memory.wfFrom (c.1 + 1) m = true := by
  simp [Memory.wfFrom, Memory.unlisted, and_assoc]

theorem Memory.wfFrom_mono {lo lo' : Nat} (h : lo' ≤ lo) {m : Memory} (hm : Memory.wfFrom lo m = true) :
    Memory.wfFrom lo' m = true := by
  cases m with
  | nil => rfl
  | cons c m => rw [Memory.wfFrom_cons] at hm ⊢; exact ⟨by omega, hm.2⟩

theorem Memory.wfFrom_filter (p : Host.Cell → Bool) (m : Memory) :
    ∀ lo, Memory.wfFrom lo m = true → Memory.wfFrom lo (m.filter p) = true := by
  induction m with
  | nil => intro lo _; rfl
  | cons c m ih =>
    intro lo h
    rw [Memory.wfFrom_cons] at h
    by_cases hp : p c = true
    · rw [List.filter_cons_of_pos hp, Memory.wfFrom_cons]
      exact ⟨h.1, h.2.1, h.2.2.1, ih _ h.2.2.2⟩
    · rw [List.filter_cons_of_neg hp]
      exact Memory.wfFrom_mono (by omega) (ih _ h.2.2.2)

theorem Memory.wfFrom_insertCell (k : Nat) (v : Byte) (hv : v ≠ 0#8) (hk : k < 32) (m : Memory) :
    ∀ lo, lo ≤ k → (∀ c ∈ m, c.1 ≠ k) → Memory.wfFrom lo m = true →
      Memory.wfFrom lo (Memory.insertCell k v m) = true := by
  induction m with
  | nil => intro lo hlo _ _; simp [Memory.insertCell, Memory.wfFrom, Memory.unlisted, hlo, hk, hv]
  | cons c m ih =>
    intro lo hlo hne h
    have hc : c.1 ≠ k := hne c (by simp)
    rw [Memory.wfFrom_cons] at h
    unfold Memory.insertCell
    split
    · rename_i hlt
      rw [Memory.wfFrom_cons, Memory.wfFrom_cons]
      exact ⟨hlo, hk, hv, hlt, h.2⟩
    · rename_i hlt
      rw [Memory.wfFrom_cons]
      exact ⟨h.1, h.2.1, h.2.2.1, ih _ (by omega) (fun d hd => hne d (by simp [hd])) h.2.2.2⟩

/-- Every store keeps the canonical form. -/
theorem Memory.wf_write {m : Memory} (h : m.wf = true) (a : Addr) (v : Byte) : (m.write a v).wf = true := by
  have hf := Memory.wfFrom_filter (fun c => c.1 != a.val) m 0 h
  unfold Memory.write Memory.wf
  simp only
  split
  · exact hf
  · rename_i hv
    exact Memory.wfFrom_insertCell _ _ hv a.isLt _ _ (Nat.zero_le _) (by simp) hf

theorem Memory.lookupAt_below {m : Memory} {lo a : Nat} (h : Memory.wfFrom lo m = true) (ha : a < lo) :
    Memory.lookupAt m a = 0#8 := by
  induction m generalizing lo with
  | nil => rfl
  | cons c m ih =>
    rw [Memory.wfFrom_cons] at h
    have : ¬ c.1 = a := by omega
    simpa [Memory.lookupAt_cons, this] using ih h.2.2.2 (by omega)

theorem Memory.eq_of_lookupAt {m : Memory} : ∀ {m' : Memory} {lo : Nat}, Memory.wfFrom lo m = true →
    Memory.wfFrom lo m' = true → (∀ a < 32, Memory.lookupAt m a = Memory.lookupAt m' a) → m = m' := by
  induction m with
  | nil =>
    intro m' lo _ h' he
    cases m' with
    | nil => rfl
    | cons c m' =>
      rw [Memory.wfFrom_cons] at h'
      have := he c.1 h'.2.1
      simp [Memory.lookupAt_cons] at this
      exact absurd this.symm h'.2.2.1
  | cons c m ih =>
    intro m' lo h h' he
    rw [Memory.wfFrom_cons] at h
    have hc := he c.1 h.2.1
    cases m' with
    | nil => simp [Memory.lookupAt_cons] at hc; exact absurd hc h.2.2.1
    | cons d m' =>
      rw [Memory.wfFrom_cons] at h'
      have hd := he d.1 h'.2.1
      have hkey : c.1 = d.1 := by
        rcases Nat.lt_trichotomy c.1 d.1 with hlt | heq | hgt
        · have h1 : ¬ d.1 = c.1 := by omega
          rw [Memory.lookupAt_cons, Memory.lookupAt_cons, if_pos rfl, if_neg h1,
            Memory.lookupAt_below h'.2.2.2 (by omega)] at hc
          exact absurd hc h.2.2.1
        · exact heq
        · have h1 : ¬ c.1 = d.1 := by omega
          rw [Memory.lookupAt_cons, Memory.lookupAt_cons, if_pos rfl, if_neg h1,
            Memory.lookupAt_below h.2.2.2 (by omega)] at hd
          exact absurd hd.symm h'.2.2.1
      have hval : c.2 = d.2 := by simpa [Memory.lookupAt_cons, hkey] using hc
      have hcd : c = d := Prod.ext hkey hval
      subst hcd
      congr 1
      refine ih (lo := c.1 + 1) h.2.2.2 h'.2.2.2 fun a ha => ?_
      by_cases hca : c.1 = a
      · rw [Memory.lookupAt_below h.2.2.2 (by omega), Memory.lookupAt_below h'.2.2.2 (by omega)]
      · simpa [Memory.lookupAt_cons, hca] using he a ha

/-- Two buffers in canonical form that read the same are the same list. -/
theorem Memory.eq_of_read {m m' : Memory} (h : m.wf = true) (h' : m'.wf = true)
    (he : ∀ a : Addr, m.read a = m'.read a) : m = m' :=
  Memory.eq_of_lookupAt h h' fun a ha => he ⟨a, ha⟩

/-! ### The 32 cells as a list -/

@[simp] theorem Memory.length_toBytes (m : Memory) : m.toBytes.length = 32 := by simp [Memory.toBytes]

@[simp] theorem Memory.getElem_toBytes (m : Memory) (k : Nat) (h : k < m.toBytes.length) :
    m.toBytes[k] = m.read ⟨k, by simpa using h⟩ := by simp [Memory.toBytes]

@[simp] theorem Memory.length_checksummed (m : Memory) : m.checksummed.length = 30 := by
  simp [Memory.checksummed, Config.ckLen]

end Sys2Proof.Machine
end

