-- ==== Sys2Proof/Laws/Bits.lean ====
section
/-! SUPPORT. Byte order, the selection word and its bytes: building and taking apart are inverse. -/

namespace Sys2Proof
open Machine

theorem toNat_wordOf (lo hi : Byte) : (wordOf lo hi).toNat = lo.toNat + 256 * hi.toNat := by
  unfold wordOf; have := lo.isLt; have := hi.isLt; simp; omega
theorem toNat_loByte (w : Word) : (loByte w).toNat = w.toNat % 256 := by simp [loByte]
theorem toNat_hiByte (w : Word) : (hiByte w).toNat = w.toNat / 256 := by
  have := w.isLt; simp [hiByte, Nat.shiftRight_eq_div_pow]; omega
@[simp] theorem loByte_wordOf (lo hi : Byte) : loByte (wordOf lo hi) = lo := by
  apply BitVec.eq_of_toNat_eq; rw [toNat_loByte, toNat_wordOf]; omega
@[simp] theorem hiByte_wordOf (lo hi : Byte) : hiByte (wordOf lo hi) = hi := by
  apply BitVec.eq_of_toNat_eq; rw [toNat_hiByte, toNat_wordOf]; have := lo.isLt; omega
@[simp] theorem wordOf_loByte_hiByte (w : Word) : wordOf (loByte w) (hiByte w) = w := by
  apply BitVec.eq_of_toNat_eq; rw [toNat_wordOf, toNat_loByte, toNat_hiByte]; omega
theorem eq_wordOf_iff (w : Word) (lo hi : Byte) : w = wordOf lo hi ↔ lo = loByte w ∧ hi = hiByte w := by
  constructor
  · rintro rfl; simp
  · rintro ⟨rfl, rfl⟩; simp

@[simp] theorem Mode.ofBit_toBit (m : Mode) : Mode.ofBit m.toBit = m := by cases m <;> rfl
@[simp] theorem Mode.toBit_ofBit (b : Bool) : (Mode.ofBit b).toBit = b := by cases b <;> rfl


@[simp] theorem Sel.ofWord_toWord (x : Sel) : Sel.ofWord x.toWord = x := by
  obtain ⟨ck, rst, iv, m, ix, b⟩ := x
  have h1 : (Sel.toWord ⟨ck, rst, iv, m, ix, b⟩).extractLsb' 0 8 = b := by
    apply BitVec.eq_of_getLsbD_eq; intro i hi
    interval_cases i <;> simp [Sel.toWord]
  have h2 : (Sel.toWord ⟨ck, rst, iv, m, ix, b⟩).extractLsb' 8 5 = BitVec.ofFin (w := 5) ix := by
    generalize hx : BitVec.ofFin (w := 5) ix = x
    apply BitVec.eq_of_getLsbD_eq; intro i hi
    interval_cases i <;> simp [Sel.toWord, hx]
  have h3 : (Sel.toWord ⟨ck, rst, iv, m, ix, b⟩).getLsbD 13 = m.toBit := by simp [Sel.toWord]
  have h4 : (Sel.toWord ⟨ck, rst, iv, m, ix, b⟩).getLsbD 14 = iv := by simp [Sel.toWord]
  have h5 : (Sel.toWord ⟨ck, rst, iv, m, ix, b⟩).getLsbD 15 = rst := by simp [Sel.toWord]
  have h6 : (Sel.toWord ⟨ck, rst, iv, m, ix, b⟩).getLsbD 16 = ck := by simp [Sel.toWord]
  simp only [Sel.ofWord, h1, h2, h3, h4, h5, h6, Mode.ofBit_toBit]

theorem Sel.toWord_ofWord (w : BitVec 17) : (Sel.ofWord w).toWord = w := by
  have hx : BitVec.ofFin (w := 5) (Sel.ofWord w).index = w.extractLsb' 8 5 := rfl
  apply BitVec.eq_of_getLsbD_eq; intro i hi
  simp only [Sel.toWord, hx]
  simp only [Sel.ofWord, Mode.toBit_ofBit]
  interval_cases i <;> simp

theorem decode_wordBytes (w : BitVec 17) : decode (wordBytes w) = .ok (decodeWord w) := by
  have h1 : (w.extractLsb' 16 8).toNat ≤ 1 := by simp [Nat.shiftRight_eq_div_pow]; omega
  have h2 : wordOfBytes (w.extractLsb' 0 8) (w.extractLsb' 8 8) (w.extractLsb' 16 8) = w := by
    ext i hi
    interval_cases i <;> simp [wordOfBytes, BitVec.getLsbD_eq_getElem]
  simp only [decode, wordBytes, h1, if_true, h2]
end Sys2Proof
end

