-- ==== Sys2Proof/Laws/Exec.lean ====
section
/-! SUPPORT. What a step can do, said once, and what each operation leaves, field by field. -/

namespace Sys2Proof.Machine

/-! ### The operations -/

@[simp] theorem opIdle_mode (s : State) : (opIdle s).mode = s.mode := rfl
@[simp] theorem opIdle_index (s : State) : (opIdle s).index = s.index := rfl
@[simp] theorem opIdle_acc (s : State) : (opIdle s).acc = s.acc := rfl
@[simp] theorem opIdle_buf (s : State) : (opIdle s).buf = s.buf := rfl
@[simp] theorem opIdle_pending (s : State) : (opIdle s).pending = s.pending := rfl
@[simp] theorem opIdle_outputs (s : State) : (opIdle s).outputs = s.outputs ++ [none] := rfl

@[simp] theorem opReset_mode (s : State) : (opReset s).mode = .seeking := rfl
@[simp] theorem opReset_index (s : State) : (opReset s).index = 0 := rfl
@[simp] theorem opReset_acc (s : State) : (opReset s).acc = Config.ckInit := rfl
@[simp] theorem opReset_buf (s : State) : (opReset s).buf = [] := rfl
@[simp] theorem opReset_pending (s : State) : (opReset s).pending = s.pending := rfl
@[simp] theorem opReset_outputs (s : State) : (opReset s).outputs = s.outputs ++ [none] := rfl

@[simp] theorem opSeekSkip_mode (b : Byte) (s : State) : (opSeekSkip b s).mode = s.mode := rfl
@[simp] theorem opSeekSkip_index (b : Byte) (s : State) : (opSeekSkip b s).index = s.index := rfl
@[simp] theorem opSeekSkip_acc (b : Byte) (s : State) : (opSeekSkip b s).acc = s.acc := rfl
@[simp] theorem opSeekSkip_buf (b : Byte) (s : State) : (opSeekSkip b s).buf = s.buf := rfl
@[simp] theorem opSeekSkip_pending (b : Byte) (s : State) : (opSeekSkip b s).pending = s.pending := rfl
@[simp] theorem opSeekSkip_outputs (b : Byte) (s : State) : (opSeekSkip b s).outputs = s.outputs ++ [none] := rfl

@[simp] theorem opSeekSync_mode (b : Byte) (s : State) : (opSeekSync b s).mode = .collecting := rfl
@[simp] theorem opSeekSync_index (b : Byte) (s : State) : (opSeekSync b s).index = 1 := rfl
@[simp] theorem opSeekSync_acc (b : Byte) (s : State) : (opSeekSync b s).acc = Config.ckInit - b.zeroExtend 16 := rfl
@[simp] theorem opSeekSync_buf (b : Byte) (s : State) : (opSeekSync b s).buf = s.buf.write 0 b := rfl
@[simp] theorem opSeekSync_pending (b : Byte) (s : State) : (opSeekSync b s).pending = s.pending := rfl
@[simp] theorem opSeekSync_outputs (b : Byte) (s : State) : (opSeekSync b s).outputs = s.outputs ++ [none] := rfl

@[simp] theorem opCollectDrop_mode (b : Byte) (s : State) : (opCollectDrop b s).mode = .seeking := rfl
@[simp] theorem opCollectDrop_index (b : Byte) (s : State) : (opCollectDrop b s).index = 0 := rfl
@[simp] theorem opCollectDrop_acc (b : Byte) (s : State) : (opCollectDrop b s).acc = Config.ckInit := rfl
@[simp] theorem opCollectDrop_buf (b : Byte) (s : State) : (opCollectDrop b s).buf = s.buf.write 31 b := rfl
@[simp] theorem opCollectDrop_pending (b : Byte) (s : State) : (opCollectDrop b s).pending = s.pending := rfl
@[simp] theorem opCollectDrop_outputs (b : Byte) (s : State) : (opCollectDrop b s).outputs = s.outputs ++ [none] := rfl

@[simp] theorem opCollectEmit_mode (b : Byte) (s : State) : (opCollectEmit b s).mode = .seeking := rfl
@[simp] theorem opCollectEmit_index (b : Byte) (s : State) : (opCollectEmit b s).index = 0 := rfl
@[simp] theorem opCollectEmit_acc (b : Byte) (s : State) : (opCollectEmit b s).acc = Config.ckInit := rfl
@[simp] theorem opCollectEmit_buf (b : Byte) (s : State) : (opCollectEmit b s).buf = s.buf.write 31 b := rfl
@[simp] theorem opCollectEmit_pending (b : Byte) (s : State) : (opCollectEmit b s).pending = s.pending := rfl
@[simp] theorem opCollectEmit_outputs (b : Byte) (s : State) : (opCollectEmit b s).outputs = s.outputs ++ [some (extract (s.buf.write 31 b))] := rfl

@[simp] theorem opCollectStore_index (i : Addr) (b : Byte) (s : State) : (opCollectStore i b s).index = i + 1 := by
  unfold opCollectStore; split <;> rfl
@[simp] theorem opCollectStore_mode (i : Addr) (b : Byte) (s : State) : (opCollectStore i b s).mode = .collecting := by
  unfold opCollectStore; split <;> rfl
@[simp] theorem opCollectStore_buf (i : Addr) (b : Byte) (s : State) : (opCollectStore i b s).buf = s.buf.write i b := by
  unfold opCollectStore; split <;> rfl
@[simp] theorem opCollectStore_acc (i : Addr) (b : Byte) (s : State) :
    (opCollectStore i b s).acc = if i.val ≤ 29 then s.acc - b.zeroExtend 16 else s.acc := by
  unfold opCollectStore; split <;> rfl
@[simp] theorem opCollectStore_outputs (i : Addr) (b : Byte) (s : State) :
    (opCollectStore i b s).outputs = s.outputs ++ [none] := by
  unfold opCollectStore; split <;> rfl
@[simp] theorem opCollectStore_pending (i : Addr) (b : Byte) (s : State) : (opCollectStore i b s).pending = s.pending := by
  unfold opCollectStore; split <;> rfl

/-! ### The step -/

theorem feed_withPending (b : Byte) (p : List Item) (s : State) :
    feed b (s.withPending p) = (feed b s).withPending p := by
  have hck : ckOk (s.withPending p) b = ckOk s b := rfl
  unfold feed
  rw [hck, State.withPending_mode, State.withPending_index]
  cases s.mode with
  | seeking => by_cases h : b = Config.sync <;> simp only [h, if_true, if_false] <;> rfl
  | collecting =>
    by_cases h : s.index.val ≤ 30
    · simp only [h, if_true]; unfold opCollectStore; split <;> rfl
    · by_cases h' : ckOk s b = true <;> simp only [h, h', if_true, if_false] <;> rfl

/-- What `feed` does, said once: it is one of the five transitions of 40_feed_and_seeking.md R81, under that row's
conditions. -/
theorem feed_cases (b : Byte) (s : State) :
    (s.mode = .seeking ∧ b = Config.sync ∧ feed b s = opSeekSync b s) ∨
    (s.mode = .seeking ∧ b ≠ Config.sync ∧ feed b s = opSeekSkip b s) ∨
    (s.mode = .collecting ∧ s.index.val ≤ 30 ∧ feed b s = opCollectStore s.index b s) ∨
    (s.mode = .collecting ∧ s.index.val = 31 ∧ ckOk s b = true ∧ feed b s = opCollectEmit b s) ∨
    (s.mode = .collecting ∧ s.index.val = 31 ∧ ckOk s b = false ∧ feed b s = opCollectDrop b s) := by
  have hi := s.index.isLt
  cases hm : s.mode with
  | seeking => by_cases hb : b = Config.sync <;> simp [feed, hm, hb]
  | collecting =>
    by_cases h : s.index.val ≤ 30
    · simp [feed, hm, h]
    · have h31 : s.index.val = 31 := by omega
      cases hc : ckOk s b <;> simp [feed, hm, hc, h31]

@[simp] theorem feed_pending (b : Byte) (s : State) : (feed b s).pending = s.pending := by
  rcases feed_cases b s with ⟨_, _, e⟩ | ⟨_, _, e⟩ | ⟨_, _, e⟩ | ⟨_, _, _, e⟩ | ⟨_, _, _, e⟩ <;> simp [e]

/-- One output a `feed`. -/
theorem feed_outputs (b : Byte) (s : State) : ∃ o, (feed b s).outputs = s.outputs ++ [o] := by
  rcases feed_cases b s with ⟨_, _, e⟩ | ⟨_, _, e⟩ | ⟨_, _, e⟩ | ⟨_, _, _, e⟩ | ⟨_, _, _, e⟩ <;> rw [e]
  · exact ⟨none, rfl⟩
  · exact ⟨none, rfl⟩
  · exact ⟨none, by simp⟩
  · exact ⟨some (extract (s.buf.write 31 b)), rfl⟩
  · exact ⟨none, rfl⟩

@[simp] theorem opFrame_pending (f : Frame) (s : State) :
    (opFrame f s).pending = feedItems (f.bytes.drop 1) ++ s.pending := by simp [opFrame]

/-- No operation reads the caller's list. -/
theorem stepInput_withPending (inp : Input) (s : State) (p : List Item) :
    stepInput inp (s.withPending p) = (stepInput inp s).withPending p := by
  unfold stepInput
  rw [feed_withPending]
  split
  · rfl
  · split <;> rfl

/-- A step on presented inputs is the `step` of 40_feed_and_seeking.md R80. -/
theorem step_of_present {s : State} {inp : Input} {rest : List Item} (h : s.pending = .present inp :: rest) :
    step s = .next (stepInput inp (s.withPending rest)) := by
  have hs : fetch s = (decodeSel (selOf s inp), s.withPending rest) := by
    unfold fetch; rw [h]; rfl
  rw [step, hs]
  have hck : ckOk (s.withPending rest) inp.inByte = ckOk s inp.inByte := rfl
  unfold stepInput feed decodeSel selOf
  simp only [State.withPending_mode, State.withPending_index, hck]
  split
  · rfl
  · split
    · rfl
    · cases s.mode <;> simp only
      · split <;> rfl
      · split
        · rfl
        · split <;> rfl

/-- A step on a `FRAME` item feeds its byte 0 and lines up the others. -/
theorem step_of_frame {s : State} {f : Frame} {rest : List Item} (h : s.pending = .frame f :: rest) :
    step s = .next (opFrame f (s.withPending rest)) := by
  have hs : fetch s = (.frame f, s.withPending rest) := by unfold fetch; rw [h]; rfl
  rw [step, hs]; rfl

/-- A step with nothing presented is IDLE. -/
theorem step_of_nil {s : State} (h : s.pending = []) : step s = .next (opIdle s) := by
  have hs : fetch s = (.idle, s) := by unfold fetch; rw [h]; rfl
  rw [step, hs]; rfl

/-- Feeding bytes is presenting them one a step. -/
theorem stepInputs_feed (bs : List Byte) (s : State) : stepInputs (bs.map feedInput) s = feedAll bs s := by
  induction bs generalizing s with
  | nil => rfl
  | cons b bs ih => exact ih (feed b s)

theorem feedItems_eq (bs : List Byte) : feedItems bs = inputItems (bs.map feedInput) := by simp [feedItems, inputItems]

@[simp] theorem fedCount_nil : fedCount [] = 0 := rfl
theorem fedCount_cons (inp : Input) (inps : List Input) :
    fedCount (inp :: inps) = (if inp.rst = false ∧ inp.inValid = true then 1 else 0) + fedCount inps := by
  cases h : inp.rst <;> cases h' : inp.inValid <;> simp [fedCount, h, h', Nat.add_comm]
theorem fedCount_append (inps jnps : List Input) : fedCount (inps ++ jnps) = fedCount inps + fedCount jnps := by
  simp [fedCount]
@[simp] theorem fedCount_feedInput (bs : List Byte) : fedCount (bs.map feedInput) = bs.length := by
  induction bs with
  | nil => rfl
  | cons b bs ih => rw [List.map_cons, fedCount_cons, ih]; simp [feedInput, Nat.add_comm]

@[simp] theorem feedAll_nil (s : State) : feedAll [] s = s := rfl
@[simp] theorem feedAll_cons (b) (bs) (s : State) : feedAll (b::bs) s = feedAll bs (feed b s) := rfl
theorem feedAll_append (bs cs : List Byte) (s : State) : feedAll (bs ++ cs) s = feedAll cs (feedAll bs s) := by simp [feedAll]

theorem feed_seeking_sync {s : State} (h : s.mode = .seeking) : feed Config.sync s = opSeekSync Config.sync s := by simp [feed, h]
theorem feed_seeking_skip {s : State} (h : s.mode = .seeking) {b} (hb : b ≠ Config.sync) : feed b s = opSeekSkip b s := by simp [feed, h, hb]
theorem feed_collecting_store {s : State} (h : s.mode = .collecting) (hi : s.index.val ≤ 30) (b) : feed b s = opCollectStore s.index b s := by simp [feed, h, hi]
theorem feed_collecting_last {s : State} (h : s.mode = .collecting) (hi : s.index = 31) (b) : feed b s = if ckOk s b then opCollectEmit b s else opCollectDrop b s := by simp [feed, h, hi]

end Sys2Proof.Machine
end

