-- ==== Sys2Proof/Laws/Frame.lean ====
section
/-! SUPPORT. The frame format: which byte of the 32 holds what, and fields and bytes are inverse. -/

namespace Sys2Proof
open Machine

/-- Channel `c` of the fields read from bytes. -/
theorem Frame.get_ofByteAt (g : Nat → Byte) (c : Fin 14) :
   (Frame.ofByteAt g).ch.get c = wordOf (g (2 + 2*c.val)) (g (2+2*c.val+1)) := by
  simp [Frame.ofByteAt, Vector.get_eq_getElem]

/-- Two bytes a word. -/
theorem length_flatMap_le (ws : List Word) : (ws.flatMap leBytes).length = 2 * ws.length := by
  induction ws with
  | nil => rfl
  | cons w ws ih => simp [List.flatMap_cons, leBytes] at *; omega

@[simp] theorem Frame.length_bytes (f : Frame) : f.bytes.length = 32 := by
  simp [Frame.bytes, leBytes]

/-- Word `c` of a payload is its bytes `2c` and `2c+1`. -/
theorem getElem?_flatMap_le (ws : List Word) (c : Nat) (h : c < ws.length) :
   (ws.flatMap leBytes)[2*c]? = some (loByte ws[c]) ∧ (ws.flatMap leBytes)[2*c+1]? = some (hiByte ws[c]) := by
  induction ws generalizing c with
  | nil => simp at h
  | cons w ws ih =>
    cases c with
    | zero => simp [leBytes]
    | succ c =>
      have := ih c (by simpa using h)
      simp only [List.flatMap_cons, leBytes, List.cons_append, List.nil_append] at *
      simpa [Nat.mul_succ] using this

/-- Byte 0 is the sync field. -/
theorem Frame.bytes_zero (f : Frame) : f.bytes[0]? = some f.sync := rfl

/-- Byte 1 is `LEN`. -/
theorem Frame.bytes_one (f : Frame) : f.bytes[1]? = some f.len := rfl

/-- Channel `c` is bytes `2*(c+1)` and `2*(c+1)+1`, low byte first. -/
theorem Frame.bytes_channel (f : Frame) (c : Fin 14) :
    f.bytes[2 + 2*c.val]? = some (loByte (f.ch.get c)) ∧ f.bytes[2 + 2*c.val+1]? = some (hiByte (f.ch.get c)) := by
  have hl := length_flatMap_le f.ch.toList
  have := getElem?_flatMap_le f.ch.toList c.val (by simp)
  have hc := c.isLt
  simp only [Vector.length_toList] at hl
  constructor
  · rw [Nat.add_comm]; simp only [Frame.bytes, List.getElem?_cons_succ]
    rw [List.getElem?_append_left (by omega), this.1]; simp [Vector.get_eq_getElem]
  · rw [show 2 + 2*c.val+1 = 2*c.val+1+1+1 by omega]; simp only [Frame.bytes, List.getElem?_cons_succ]
    rw [List.getElem?_append_left (by omega), this.2]; simp [Vector.get_eq_getElem]

/-- The checksum is bytes 30 and 31, low byte first. -/
theorem Frame.bytes_cksum (f : Frame) :
    f.bytes[30]? = some (loByte f.cksum) ∧ f.bytes[31]? = some (hiByte f.cksum) := by
  have hl := length_flatMap_le f.ch.toList
  simp only [Vector.length_toList] at hl
  constructor
  · rw [show 30 = 28+1+1 by omega]; simp only [Frame.bytes, List.getElem?_cons_succ]
    rw [List.getElem?_append_right (by omega), hl]; rfl
  · rw [show 31 = 29+1+1 by omega]; simp only [Frame.bytes, List.getElem?_cons_succ]
    rw [List.getElem?_append_right (by omega), hl]; rfl

/-- Reading the fields back from the bytes gives the frame. -/
theorem Frame.ofBytes_bytes (f : Frame) : Frame.ofBytes f.bytes = f := by
  obtain ⟨s, l, ch, ck⟩ := f
  have h0 := Frame.bytes_zero ⟨s,l,ch,ck⟩
  have h1 := Frame.bytes_one ⟨s,l,ch,ck⟩
  have h2 := Frame.bytes_cksum ⟨s,l,ch,ck⟩
  have h3 : Vector.ofFn (fun c : Fin 14 => wordOf ((⟨s,l,ch,ck⟩ : Frame).bytes.getD (2 + 2 * c.val) 0) ((⟨s,l,ch,ck⟩ : Frame).bytes.getD (2 + 2 * c.val + 1) 0)) = ch := by
    ext c hc
    have := Frame.bytes_channel ⟨s,l,ch,ck⟩ ⟨c,hc⟩
    simp [List.getD_eq_getElem?_getD, this.1, this.2, Vector.get_eq_getElem]
  have h4 : wordOf ((⟨s,l,ch,ck⟩ : Frame).bytes.getD 30 0) ((⟨s,l,ch,ck⟩ : Frame).bytes.getD 31 0) = ck := by
    rw [List.getD_eq_getElem?_getD, List.getD_eq_getElem?_getD, h2.1, h2.2]; exact wordOf_loByte_hiByte ck
  have h5 : (⟨s,l,ch,ck⟩ : Frame).bytes.getD 0 0 = s := by rw [List.getD_eq_getElem?_getD, h0]; rfl
  have h6 : (⟨s,l,ch,ck⟩ : Frame).bytes.getD 1 0 = l := by rw [List.getD_eq_getElem?_getD, h1]; rfl
  unfold Frame.ofBytes Frame.ofByteAt
  rw [Frame.mk.injEq]
  exact ⟨h5, h6, h3, h4⟩

end Sys2Proof
end

