-- ==== Sys2Proof/Laws/Collection.lean ====
section
/-! SUPPORT. A collection byte by byte: the state after the sync marker and up to 30 more bytes, and what the 32
bytes of a whole collection leave. -/

namespace Sys2Proof.Machine

theorem byteSum_append (bs cs : List Byte) : byteSum (bs ++ cs) = byteSum bs + byteSum cs := by simp [byteSum]
theorem byteSum_singleton (b : Byte) : byteSum [b] = b.toNat := by simp [byteSum]

/-- Lane `c` of the extractor (43_extraction.md R111). -/
theorem get_extract (m : Memory) (c : Fin 14) {lo hi : Addr} (hl : lo.val = 2 * (c.val + 1)) (hh : hi.val = 2 * (c.val + 1) + 1) :
    (extract m).get c = wordOf (m.read lo) (m.read hi) := by
  have e1 : WordSlot.low (channelSlot c) = lo := Fin.ext (by simp [WordSlot.low, channelSlot, hl, Config.payOff]; omega)
  have e2 : WordSlot.high (channelSlot c) = hi := Fin.ext (by simp [WordSlot.high, channelSlot, hh, Config.payOff]; omega)
  simp [extract, Vector.get_eq_getElem, Memory.readWord, e1, e2]

/-- 42_checksum.md R105: the loop is one subtraction of the sum. -/
theorem cksum_eq (bs : List Byte) : cksum bs = Config.ckInit - BitVec.ofNat 16 (byteSum bs) := by
  have : ∀ (bs : List Byte) (a : Word), bs.foldl (fun a b => a - b.zeroExtend 16) a = a - BitVec.ofNat 16 (byteSum bs) := by
    intro bs
    induction bs with
    | nil => intro a; simp [byteSum]
    | cons b bs ih =>
      intro a
      rw [List.foldl_cons, ih]
      have : byteSum (b :: bs) = b.toNat + byteSum bs := by simp [byteSum]
      rw [this]; bv_omega
  exact this bs _

/-- `t` is what feeding the bytes `bs` of one collection (the first of them the sync marker) to a decoder in
Seeking leaves of `s`: 10_state.md R25, R29, R23. -/
structure Collected (bs : List Byte) (s t : State) : Prop where
  mode : t.mode = .collecting
  index : t.index.val = bs.length
  acc : t.acc = Config.ckInit - BitVec.ofNat 16 (byteSum (bs.take 30))
  read : ∀ k : Addr, ∀ h : k.val < bs.length, t.buf.read k = bs[k.val]
  stale : ∀ k : Addr, bs.length ≤ k.val → t.buf.read k = s.buf.read k
  outputs : t.outputs = s.outputs ++ List.replicate bs.length none
  pending : t.pending = s.pending

/-- The sync marker starts a collection. -/
theorem collected_sync (s : State) : Collected [Config.sync] s (opSeekSync Config.sync s) where
  mode := rfl
  index := rfl
  acc := rfl
  read := by
    intro k h; have hk : k = 0 := Fin.ext (by simpa using h); subst hk; simp [opSeekSync]
  stale := by
    intro k h; have hk : k ≠ 0 := by rintro rfl; simp at h
    simp [opSeekSync, Memory.read_write_of_ne _ _ hk]
  outputs := rfl
  pending := rfl

/-- Each byte up to offset 30 extends it. -/
theorem collected_store {bs : List Byte} {s t : State} (hc : Collected bs s t) (h1 : bs.length ≤ 30) (b : Byte) :
    Collected (bs ++ [b]) s (feed b t) := by
  have hi := hc.index
  rw [feed_collecting_store hc.mode (by omega)]
  have e : (opCollectStore t.index b t).index = t.index + 1 := by unfold opCollectStore; split <;> rfl
  have eb : (opCollectStore t.index b t).buf = t.buf.write t.index b := by unfold opCollectStore; split <;> rfl
  constructor
  · unfold opCollectStore; split <;> rfl
  · rw [e, Fin.val_add_one_of_lt]
    · simp [hi]
    · rw [Fin.lt_def]; simp; omega
  · have : (opCollectStore t.index b t).acc = if t.index.val ≤ 29 then t.acc - b.zeroExtend 16 else t.acc := by
      unfold opCollectStore; split <;> rfl
    rw [this, hc.acc]
    split
    · rw [List.take_of_length_le (by omega), List.take_of_length_le (by simp; omega), byteSum_append, byteSum_singleton]
      bv_omega
    · rw [List.take_append_of_le_length (by omega)]
  · intro k hk
    rw [eb, Memory.read_write]
    by_cases h : t.index = k
    · subst h; simp [hi]
    · have hlt : k.val < bs.length := by
        have : k.val ≠ t.index.val := fun e => h (Fin.ext e.symm)
        simp at hk; omega
      rw [if_neg h, hc.read k hlt, List.getElem_append_left hlt]
  · intro k hk
    have : k ≠ t.index := by rintro rfl; simp at hk; omega
    rw [eb, Memory.read_write_of_ne _ _ this]
    exact hc.stale k (by simp at hk; omega)
  · have : (opCollectStore t.index b t).outputs = t.outputs ++ [none] := by unfold opCollectStore; split <;> rfl
    rw [this, hc.outputs]; simp [List.replicate_succ']
  · have : (opCollectStore t.index b t).pending = t.pending := by unfold opCollectStore; split <;> rfl
    rw [this, hc.pending]

theorem collected_feedAll {bs : List Byte} {s t : State} (hc : Collected bs s t) (cs : List Byte) (h : bs.length + cs.length ≤ 31) :
    Collected (bs ++ cs) s (feedAll cs t) := by
  induction cs generalizing bs t with
  | nil => simpa using hc
  | cons c cs ih =>
    simp at h
    have := ih (collected_store hc (by omega) c) (by simp; omega)
    simpa using this

theorem collected_of_seeking {s : State} (h : s.mode = .seeking) (cs : List Byte) (hl : cs.length ≤ 30) :
    Collected (Config.sync :: cs) s (feedAll (Config.sync :: cs) s) := by
  rw [feedAll_cons, feed_seeking_sync h]
  exact collected_feedAll (collected_sync s) cs (by simp; omega)
/-- A whole collection from Seeking: 41_collecting.md R91 to R93 at its end. -/
theorem feedAll_collection {s : State} (h : s.mode = .seeking) (bs : List Byte) (hl : bs.length = 29) (lo hi : Byte) :
    let t := feedAll (Config.sync :: bs ++ [lo, hi]) s
    t.mode = .seeking ∧ t.index = 0 ∧ t.acc = Config.ckInit ∧ t.pending = s.pending ∧ t.buf.toBytes = Config.sync :: bs ++ [lo, hi] ∧
    (cksum (Config.sync :: bs) = wordOf lo hi → t.outputs = s.outputs ++ collectionOutputs (some (extract t.buf))) ∧
    (cksum (Config.sync :: bs) ≠ wordOf lo hi → t.outputs = s.outputs ++ collectionOutputs none) := by
  have hc := collected_of_seeking h (bs ++ [lo]) (by simp; omega)
  have e : Config.sync :: bs ++ [lo, hi] = (Config.sync :: (bs ++ [lo])) ++ [hi] := by simp
  intro t
  have ht : t = feed hi (feedAll (Config.sync :: (bs ++ [lo])) s) := by
    show feedAll _ s = _
    rw [e, feedAll_append]; rfl
  generalize feedAll (Config.sync :: (bs ++ [lo])) s = u at hc ht
  have hi31 : u.index = 31 := Fin.ext (by rw [hc.index]; simp [hl])
  have hacc : u.acc = cksum (Config.sync :: bs) := by
    rw [hc.acc, cksum_eq, ← List.cons_append, List.take_append_of_le_length (by simp; omega), List.take_of_length_le (by simp; omega)]
  have h30 : u.buf.read 30 = lo := by rw [hc.read 30 (by simp [hl])]; simp [hl]
  have hbuf : (u.buf.write 31 hi).toBytes = Config.sync :: bs ++ [lo, hi] := by
    rw [e]
    apply List.ext_getElem
    · simp [hl]
    · intro k h1 h2
      have hk : k < 32 := by simpa using h1
      rw [Memory.getElem_toBytes, Memory.read_write]
      by_cases hk31 : k = 31
      · subst hk31; simp [hl]
      · rw [if_neg (by intro e; apply hk31; simpa using (congrArg Fin.val e).symm), hc.read ⟨k, hk⟩ (by simp [hl]; omega), List.getElem_append_left]
  have hout : u.outputs = s.outputs ++ List.replicate 31 none := by rw [hc.outputs]; simp [hl]
  have hck : ckOk u hi = true ↔ cksum (Config.sync :: bs) = wordOf lo hi := by simp [ckOk, rxWord, h30, hacc]
  rw [feed_collecting_last hc.mode hi31] at ht
  by_cases hk : ckOk u hi = true
  · rw [if_pos hk] at ht
    rw [ht]
    refine ⟨rfl, rfl, rfl, hc.pending, hbuf, fun _ => ?_, fun hn => absurd (hck.1 hk) hn⟩
    simp [hout, collectionOutputs]
  · rw [if_neg hk] at ht
    rw [ht]
    refine ⟨rfl, rfl, rfl, hc.pending, hbuf, fun hn => absurd (hck.2 hn) hk, fun _ => ?_⟩
    show u.outputs ++ [none] = _
    simp [hout, collectionOutputs]

/-- A frame's bytes as sync marker, the other 29 checksummed bytes, and the checksum. -/
theorem frameBytes_eq (f : Frame) : f.bytes = f.sync :: (f.len :: f.ch.toList.flatMap leBytes) ++ [loByte f.cksum, hiByte f.cksum] := by
  simp [Frame.bytes, leBytes]

/-- The extractor on a buffer that holds a frame gives the frame's channels. -/
theorem extract_of_bytes {m : Memory} {f : Frame} (h : m.toBytes = f.bytes) : extract m = f.ch := by
  apply Vector.ext; intro c hc
  have h1 : 2 + 2 * c < 32 := by omega
  have h2 : 2 + 2 * c + 1 < 32 := by omega
  have g := get_extract m ⟨c, hc⟩ (lo := ⟨2+2*c, h1⟩) (hi := ⟨2+2*c+1, h2⟩) (by simp; omega) (by simp; omega)
  have b := Frame.bytes_channel f ⟨c, hc⟩
  simp only [← h] at b
  rw [List.getElem?_eq_getElem (by simp; omega), List.getElem?_eq_getElem (by simp; omega), Memory.getElem_toBytes, Memory.getElem_toBytes] at b
  simp only [Option.some.injEq] at b
  rw [b.1, b.2, wordOf_loByte_hiByte] at g
  simpa [Vector.get_eq_getElem] using g

end Sys2Proof.Machine
end

