-- ==== Sys2Proof/Laws/Config.lean ====
section
/-! SUPPORT. The parameters of 00_scope.md R5 fit together (R6). -/

namespace Sys2Proof

theorem Config.consistent : Config.Consistent := by decide

end Sys2Proof
end

