-- ==== Sys2Proof/Laws/PerInstr.lean ====
section
/-! SUPPORT. Per-instruction families: one lemma per constructor of Instr. -/

namespace Sys2Proof.Laws.EncodeLength

/-- An encoding has one of the two lengths the decoder reads: a selection word's three bytes (30_encoding.md R73) or
a frame's 32 (R61). -/
def Statement (i : Instr) : Prop := (encode i).length = if i.op?.isSome then 3 else 32

theorem reset : Statement .reset := rfl
theorem idle : Statement .idle := rfl
theorem seekSync (b : Byte) : Statement (.seekSync b) := rfl
theorem seekSkip (b : Byte) : Statement (.seekSkip b) := rfl
theorem collectStore (i : Addr) (b : Byte) : Statement (.collectStore i b) := rfl
theorem collectEmit (b : Byte) : Statement (.collectEmit b) := rfl
theorem collectDrop (b : Byte) : Statement (.collectDrop b) := rfl
theorem frame (f : Frame) : Statement (.frame f) := Frame.length_bytes f

end Sys2Proof.Laws.EncodeLength
end

