-- ==== Sys2Proof/Laws/Rows.lean ====
section
/-! SUPPORT. The match/mask rows of 30_encoding.md R73 as conditions on single bits and fields of `W`. -/

namespace Sys2Proof
open Machine

/-- A match/mask test, bit by bit. -/
theorem bv_and_eq_iff_getLsbD (w m p : BitVec 17) : w &&& m = p ↔ ∀ i < 17, (w.getLsbD i && m.getLsbD i) = p.getLsbD i := by
  constructor
  · rintro rfl i _; simp
  · intro h; apply BitVec.eq_of_getLsbD_eq; intro i hi; simpa using h i hi

/-- `W[12:8]` is 31 exactly when its five bits are set. -/
theorem index_eq_31_iff (w : BitVec 17) : (w.getLsbD 8 = true ∧ w.getLsbD 9 = true ∧ w.getLsbD 10 = true ∧ w.getLsbD 11 = true ∧ w.getLsbD 12 = true) ↔ (Sel.ofWord w).index.val = 31 := by
  have h : (Sel.ofWord w).index = (w.extractLsb' 8 5).toFin := rfl
  have k : (w.extractLsb' 8 5).toFin.val = 31 ↔ w.extractLsb' 8 5 = 31#5 := by
    rw [← BitVec.toNat_inj]; rfl
  rw [h, k]
  constructor
  · rintro ⟨h8,h9,h10,h11,h12⟩
    apply BitVec.eq_of_getLsbD_eq; intro i hi
    interval_cases i <;> simp_all
  · intro e
    have := fun i => congrArg (fun v => BitVec.getLsbD v i) e
    have h0 := this 0; have h1 := this 1; have h2 := this 2; have h3 := this 3; have h4 := this 4
    simp at h0 h1 h2 h3 h4
    simp_all

/-- `W[7:0]` is `0x20` exactly when bit 5 alone is set. -/
theorem inByte_eq_sync_iff (w : BitVec 17) : (w.extractLsb' 0 8 = 0x20#8) ↔
   (w.getLsbD 0 = false ∧ w.getLsbD 1 = false ∧ w.getLsbD 2 = false ∧ w.getLsbD 3 = false ∧ w.getLsbD 4 = false ∧ w.getLsbD 5 = true ∧ w.getLsbD 6 = false ∧ w.getLsbD 7 = false) := by
  constructor
  · intro e
    have := fun i => congrArg (fun v => BitVec.getLsbD v i) e
    have h0 := this 0; have h1 := this 1; have h2 := this 2; have h3 := this 3; have h4 := this 4; have h5 := this 5; have h6 := this 6; have h7 := this 7
    simp at h0 h1 h2 h3 h4 h5 h6 h7
    simp_all
  · rintro ⟨_,_,_,_,_,_,_,_⟩
    apply BitVec.eq_of_getLsbD_eq; intro i hi
    interval_cases i <;> simp_all

/-- Each row of R73 as a condition on the four single bits and on `index` and `in_byte`. -/
theorem Op.applies_iff (o : Op) (w : BitVec 17) : o.applies w = true ↔
  match o with
  | .reset        => w.getLsbD 15 = true
  | .idle         => w.getLsbD 15 = false ∧ w.getLsbD 14 = false
  | .seekSync     => w.getLsbD 15 = false ∧ w.getLsbD 14 = true ∧ w.getLsbD 13 = false ∧ (Sel.ofWord w).inByte = Config.sync
  | .seekSkip     => w.getLsbD 15 = false ∧ w.getLsbD 14 = true ∧ w.getLsbD 13 = false ∧ (Sel.ofWord w).inByte ≠ Config.sync
  | .collectStore => w.getLsbD 15 = false ∧ w.getLsbD 14 = true ∧ w.getLsbD 13 = true ∧ (Sel.ofWord w).index.val ≤ 30
  | .collectEmit  => w.getLsbD 15 = false ∧ w.getLsbD 14 = true ∧ w.getLsbD 13 = true ∧ (Sel.ofWord w).index.val = 31 ∧ w.getLsbD 16 = true
  | .collectDrop  => w.getLsbD 15 = false ∧ w.getLsbD 14 = true ∧ w.getLsbD 13 = true ∧ (Sel.ofWord w).index.val = 31 ∧ w.getLsbD 16 = false
    := by
  cases o <;> simp only [Op.applies, Bool.and_eq_true, beq_iff_eq, Op.cond, and_true, bv_and_eq_iff_getLsbD] <;>
   (try simp only [← index_eq_31_iff]) <;> (try simp only [Sel.ofWord, inByte_eq_sync_iff, ne_eq, bne_iff_ne, Config.sync, decide_eq_true_eq]) <;>
   simp [Nat.forall_lt_succ_right, Nat.le_one_iff_eq_zero_or_eq_one, Op.mask, Op.pattern] <;> try tauto

end Sys2Proof
end

