-- ==== Sys2Proof/Tests/Slice0.lean ====
section
/-! SUPPORT. Tests. Expected values are the spec's own (95_test_vectors.md, the worked examples of the rules, the
rows of 30_encoding.md R73), not the model's answers. The `witness_` theorems meet the hypotheses of the statements. -/

namespace Sys2Proof.Tests

open Sys2Proof Sys2Proof.Machine

/-! ### Helpers -/

/-- A state with the given control registers, buffer cells and items to present. -/
def st (mode : Mode) (index : Fin 32) (acc : Word) (buf : Memory) (pending : List Item) : State :=
  { mode, index, acc, buf, pending, outputs := [] }

/-- The next state of an outcome, the reset state where there is none. -/
def nextOf : Host.Outcome State Fault Refusal → State
  | .next s    => s
  | .fault _   => State.reset
  | .refused _ => State.reset

/-- The channels of 95_test_vectors.md T1. -/
def chS : Message :=
  ⟨#[1499, 1500, 1364, 1500, 1000, 2000, 1490, 1000, 1500, 1500, 1500, 1500, 1500, 1500], rfl⟩

/-- The frame `S` of 95_test_vectors.md T1. -/
def frameS : Frame := { sync := 0x20, len := 0x40, ch := chS, cksum := 0xF3DA }

/-- The bytes of `S`, as T1 lists them. -/
def bytesS : List Byte :=
  [0x20, 0x40, 0xDB, 0x05, 0xDC, 0x05, 0x54, 0x05, 0xDC, 0x05, 0xE8, 0x03, 0xD0, 0x07, 0xD2, 0x05] ++
  [0xE8, 0x03, 0xDC, 0x05, 0xDC, 0x05, 0xDC, 0x05, 0xDC, 0x05, 0xDC, 0x05, 0xDC, 0x05, 0xDA, 0xF3]

/-- The first 31 cells of `S` as a buffer. -/
def bufS31 : Memory := (List.range 31).zip (bytesS.take 31)

/-- The state of T1 after step 31. -/
def atLast (pending : List Item) : State := st .collecting 31 0xF3DA#16 bufS31 pending

/-! ### WellFormed refuses each kind of ill-formed term -/

theorem test_wf_seekSync_other_byte : (Instr.seekSync 0x21).wf = false := by decide
theorem test_wf_seekSkip_sync : (Instr.seekSkip 0x20).wf = false := by decide
theorem test_wf_collectStore_31 : (Instr.collectStore 31 0).wf = false := by decide
theorem test_wf_frame_no_sync : (Instr.frame { frameS with sync := 0x21 }).wf = false := by decide

/-! ### Decoding: words written out from 30_encoding.md R73 (`ck_ok, rst, in_valid, mode, index[5], in_byte[8]`) -/

theorem test_decode_reset : decodeWord 0b0_1_0_0_00000_00000000#17 = .reset := by decide
theorem test_decode_reset_ignores_rest : decodeWord 0b1_1_1_1_11111_00100000#17 = .reset := by decide
theorem test_decode_idle : decodeWord 0b0_0_0_1_00101_00100000#17 = .idle := by decide
theorem test_decode_seekSync : decodeWord 0b0_0_1_0_00000_00100000#17 = .seekSync 0x20 := by decide
theorem test_decode_seekSkip : decodeWord 0b0_0_1_0_00000_00100001#17 = .seekSkip 0x21 := by decide
theorem test_decode_collectStore : decodeWord 0b0_0_1_1_11110_00100000#17 = .collectStore 30 0x20 := by decide
theorem test_decode_collectEmit : decodeWord 0b1_0_1_1_11111_11110011#17 = .collectEmit 0xF3 := by decide
theorem test_decode_collectDrop : decodeWord 0b0_0_1_1_11111_11110010#17 = .collectDrop 0xF2 := by decide
theorem test_decode_frame : decode bytesS = .ok (.frame frameS) := by decide
theorem test_decode_bytes_low_first : decode [0x20, 0x40, 0x00] = .ok (.seekSync 0x20) := by decide
theorem test_decode_bits_above : decode [0x20, 0x40, 0x02] = .rejected .bitsAboveSelectionWord := by decide
theorem test_decode_length : decode [0x20, 0x40] = .rejected (.notAFormat 2) := by decide
theorem test_decode_no_sync : decode (0x21 :: bytesS.drop 1) = .rejected .noSyncMarker := by decide
theorem test_encode_frame : encode (.frame frameS) = bytesS := by decide
theorem test_table_word_emit : decodeTableWord 24 0x17F00 = some (.collectEmit 0) := by decide
theorem test_table_word_frame : (decodeTableWord 8 0x20).isSome = true := by decide

/-! ### Operations -/

/-- R82's worked example. -/
theorem test_seekSync :
    let t := nextOf (step (st .seeking 0 0xFFFF#16 [] [.present (feedInput 0x20)]))
    t.mode = .collecting ∧ t.index = 1 ∧ t.acc = 0xFFDF#16 ∧ t.buf = [(0, 0x20)] ∧ t.outputs = [none] := by decide
/-- R83: a one-bit neighbour of the sync marker is skipped. -/
theorem test_seekSkip :
    nextOf (step (State.reset.withPending [.present (feedInput 0x21)])) = { State.reset with outputs := [none] } := by decide
/-- R84's worked example. -/
theorem test_idle :
    nextOf (step (st .collecting 10 0xFCA4#16 [] [.present idleInput])) =
      { st .collecting 10 0xFCA4#16 [] [] with outputs := [none] } := by decide
/-- A caller that presents nothing (log 1). -/
theorem test_nothing_presented : nextOf (step State.reset) = { State.reset with outputs := [none] } := by decide
/-- T1 step 30: the last checksummed byte. -/
theorem test_store_last_checksummed :
    let t := nextOf (step (st .collecting 29 0xF3DF#16 [] [.present (feedInput 0x05)]))
    t.index = 30 ∧ t.acc = 0xF3DA#16 ∧ t.buf = [(29, 0x05)] := by decide
/-- T1 step 31: offset 30 is stored, not subtracted. -/
theorem test_store_checksum_low :
    let t := nextOf (step (st .collecting 30 0xF3DA#16 [] [.present (feedInput 0xDA)]))
    t.index = 31 ∧ t.acc = 0xF3DA#16 ∧ t.mode = .collecting ∧ t.outputs = [none] := by decide
/-- T1 step 32. -/
theorem test_emit :
    let t := nextOf (step (atLast [.present (feedInput 0xF3)]))
    t.outputs = [some chS] ∧ t.mode = .seeking ∧ t.index = 0 ∧ t.acc = 0xFFFF#16 ∧ t.buf.toBytes = bytesS := by decide
/-- V6: the last byte wrong. -/
theorem test_drop :
    let t := nextOf (step (atLast [.present (feedInput 0xF2)]))
    t.outputs = [none] ∧ t.mode = .seeking ∧ t.index = 0 ∧ t.acc = 0xFFFF#16 ∧ t.buf.read 31 = 0xF2 := by decide
/-- R140's worked example, and V15: the byte presented with RESET is lost. -/
theorem test_reset :
    nextOf (step (st .collecting 17 0xF923#16 [(0, 0x20)] [.present { rst := true, inValid := true, inByte := 0x20 }])) =
      { State.reset with outputs := [none] } := by decide
/-- T1 step 1 as a `FRAME` item: one output, byte 1 presented next, 31 bytes to come. -/
theorem test_frame :
    let t := nextOf (step (State.reset.withPending [.frame frameS]))
    t.mode = .collecting ∧ t.index = 1 ∧ t.acc = 0xFFDF#16 ∧ t.outputs = [none] ∧
    t.pending = (bytesS.drop 1).map (fun b => .present (feedInput b)) := by decide
/-- In Collecting the first byte of a `FRAME` item is data (P3 step 14). -/
theorem test_frame_in_collecting :
    let t := nextOf (step (st .collecting 10 0xFCA4#16 [] [.frame frameS]))
    t.index = 11 ∧ t.acc = 0xFC84#16 ∧ t.buf = [(10, 0x20)] ∧ t.pending.length = 31 := by decide
/-- T1, the source's one concrete scenario, as the script item `FRAME`. -/
theorem test_script_frame :
    let t := runScript [.frame chS] State.reset
    t.outputs = collectionOutputs (some chS) ∧ t.mode = .seeking ∧ t.buf.toBytes = bytesS := by decide
/-- P2 step 32: byte 5 of `S` was corrupted, `acc` is `F3CA`. -/
theorem test_drop_corrupt :
    (nextOf (step (st .collecting 31 0xF3CA#16 bufS31 [.present (feedInput 0xF3)]))).outputs = [none] := by decide
/-- V9 step 32: thirty-two sync bytes, `acc` `FC3F`, `rx` `2020`. -/
theorem test_drop_sync_bytes :
    (nextOf (step (st .collecting 31 0xFC3F#16 [(30, 0x20)] [.present (feedInput 0x20)]))).outputs = [none] := by decide

/-! ### Functions -/

/-- R6: the parameters fit together. -/
theorem test_parameters : Config.Consistent := by decide
/-- R72 with T1's checksum. -/
theorem test_frameOf : frameOf 0x40 chS = frameS := by decide
/-- V3: the smallest checksum. -/
theorem test_cksum_smallest : (frameOf 0xFF (Vector.replicate 14 0xFFFF)).cksum = 0xE2FC#16 := by decide
/-- V3: the largest. -/
theorem test_cksum_largest : (frameOf 0x00 (Vector.replicate 14 0)).cksum = 0xFFDF#16 := by decide
/-- 43_extraction.md's examples: `34 12`, `20 00`, `00 20`. -/
theorem test_wordOf : wordOf 0x34 0x12 = 0x1234 ∧ wordOf 0x20 0x00 = 0x0020 ∧ wordOf 0x00 0x20 = 0x2000 := by decide
/-- V7 row 1: `BAD(2, 01; S)`. -/
theorem test_bad_item :
    ((ScriptItem.bad 2 0x01 0x40 chS).expand.map Input.inByte).take 4 = [0x20, 0x40, 0xDA, 0x05] := by decide
/-- Canonical form: writing `00` removes the entry. -/
theorem test_write_zero : Memory.write [(3, 0x20), (5, 0x01)] 3 0x00 = [(5, 0x01)] := by decide
/-- The ports while nothing is emitted: `out_valid` is 0. -/
theorem test_ports : (outPorts 7 none).outValid = false ∧ outPorts 7 (some chS) = ⟨true, chS⟩ := ⟨rfl, rfl⟩

/-! ### Witnesses -/

/-- The state of V2: one byte consumed. -/
def atOne : State := st .collecting 1 0xFFDF#16 [(0, 0x20)] []

theorem witness_wf :
    [Instr.reset, .idle, .seekSync 0x20, .seekSkip 0x21, .collectStore 0 0, .collectStore 30 0xFF, .collectEmit 0,
      .collectDrop 0, .frame frameS].all Instr.wf = true := by decide
theorem witness_decoded :
    decode [0x20, 0x40, 0x00] = .ok (.seekSync 0x20) ∧ (Instr.seekSync 0x20).op? = some .seekSync ∧
    decode bytesS = .ok (.frame frameS) ∧ (Instr.frame frameS).op? = none := by decide
theorem witness_inv_seeking : State.reset.Inv ∧ State.reset.mode = .seeking := by decide
theorem witness_inv_collecting : atOne.Inv ∧ atOne.mode = .collecting := by decide
theorem witness_inv_last : (atLast []).Inv ∧ (atLast []).mode = .collecting ∧ (atLast []).index = 31 := by decide
theorem witness_presented :
    (State.reset.withPending [.present (feedInput 0x20)]).pending = .present (feedInput 0x20) :: [] ∧
    decode (wordBytes (selOf (State.reset.withPending [.present (feedInput 0x20)]) (feedInput 0x20)).toWord) =
      .ok (.seekSync 0x20) := by decide
theorem witness_presented_frame :
    (State.reset.withPending [.frame frameS]).pending = .frame frameS :: [] ∧ decode frameS.bytes = .ok (.frame frameS) := by
  decide
theorem witness_presents_nothing : State.reset.pending = [] := rfl
theorem witness_table_word :
    decodeTableWord 16 0x4020 = some (.seekSync 0x20) ∧ decodeTableWord 16 0x6000 = some (.collectStore 0 0) := by decide
theorem witness_seekSync_selected :
    State.reset.mode = .seeking ∧ (State.reset.withPending [.present (feedInput 0x20)]).pending =
      .present { rst := false, inValid := true, inByte := 0x20#8 } :: [] := by decide
theorem witness_seekSkip_selected :
    (0x21 : Byte) ≠ 0x20#8 ∧ State.reset.mode = .seeking ∧ (State.reset.withPending [.present (feedInput 0x21)]).pending =
      .present { rst := false, inValid := true, inByte := 0x21#8 } :: [] ∧ (∀ c ∈ [(0x21 : Byte), 0xFF], c ≠ 0x20#8) := by decide
theorem witness_idle_selected :
    (atOne.withPending [.present idleInput]).pending = .present { rst := false, inValid := false, inByte := 0 } :: [] := by decide
theorem witness_store_low : (1 : Addr).val ≤ 30 ∧ (1 : Addr).val ≤ 29 ∧ atOne.mode = .collecting ∧ atOne.index = 1 := by decide
theorem witness_store_29 : (29 : Addr).val ≤ 30 ∧ (29 : Addr).val ≤ 29 ∧ ¬ (29 : Addr).val = 30 := by decide
theorem witness_store_30 : (30 : Addr).val ≤ 30 ∧ (30 : Addr).val = 30 ∧ ¬ (30 : Addr).val ≤ 29 := by decide
theorem witness_emit_selected :
    (atLast []).mode = .collecting ∧ (atLast []).index = 31 ∧ (atLast []).acc = wordOf ((atLast []).buf.read 30) 0xF3 ∧
    (atLast [.present (feedInput 0xF3)]).pending = .present { rst := false, inValid := true, inByte := 0xF3 } :: [] := by decide
theorem witness_drop_selected :
    (atLast []).mode = .collecting ∧ (atLast []).index = 31 ∧ (atLast []).acc ≠ wordOf ((atLast []).buf.read 30) 0xF2 ∧
    (atLast [.present (feedInput 0xF2)]).pending = .present { rst := false, inValid := true, inByte := 0xF2 } :: [] := by decide
theorem witness_channel_offsets :
    (2 : Addr).val = 2 * ((0 : Fin 14).val + 1) ∧ (3 : Addr).val = 2 * ((0 : Fin 14).val + 1) + 1 ∧
    (28 : Addr).val = 2 * ((13 : Fin 14).val + 1) ∧ (29 : Addr).val = 2 * ((13 : Fin 14).val + 1) + 1 := by decide
theorem witness_reset_selected :
    (atOne.withPending [.present { rst := true, inValid := true, inByte := 0x20 }]).pending =
      .present { rst := true, inValid := true, inByte := 0x20 } :: [] := by decide
theorem witness_reset_answers : ∃ t, exec .reset atOne = .next t := ⟨_, rfl⟩
theorem witness_frame_right : frameS.wf = true ∧ State.reset.mode = .seeking ∧ frameS.cksum = cksum (frameS.bytes.take 30) := by
  decide
theorem witness_frame_wrong :
    ({ frameS with cksum := 0xF2DA } : Frame).wf = true ∧
    ({ frameS with cksum := 0xF2DA } : Frame).cksum ≠ cksum (({ frameS with cksum := 0xF2DA } : Frame).bytes.take 30) := by decide
theorem witness_valid : frameS.Valid ∧ State.reset.mode = .seeking := ⟨⟨by decide, by decide⟩, rfl⟩
theorem witness_thirty_bytes : (bytesS.take 30).length = 30 ∧ (bytesS.take 30).length ≤ 30 := by decide
theorem witness_same_sum : byteSum [0xDB, 0x05] = byteSum [0x05, 0xDB] := by decide
theorem witness_sum_checked :
    ((bytesS.drop 1).take 29).length = 29 ∧
    wordOf 0xDA 0xF3 = 0xFFFF#16 - BitVec.ofNat 16 (byteSum (0x20#8 :: (bytesS.drop 1).take 29)) ∧
    ((bytesS.drop 1).take 29)[2 * (13 : Fin 14).val + 1]? = some 0xDC ∧
    ((bytesS.drop 1).take 29)[2 * (13 : Fin 14).val + 2]? = some 0x05 := by decide
theorem witness_equal_cells : Memory.read [(2, 0xDB), (3, 0x05), (9, 0x01)] 2 = Memory.read [(2, 0xDB), (3, 0x05)] 2 ∧
    Memory.read [(2, 0xDB), (3, 0x05), (9, 0x01)] 3 = Memory.read [(2, 0xDB), (3, 0x05)] 3 := by decide
theorem witness_frame_byte : frameS.bytes[31]? = some 0xF3 := by decide
theorem witness_step_answers : ∃ t, State.reset.Inv ∧ step State.reset = .next t := ⟨_, by decide, rfl⟩
theorem witness_reachable : Reachable (State.reset.withPending [.present (feedInput 0x20)]) := Reachable.start _
theorem witness_reachable_collecting :
    ∃ s, Reachable s ∧ s.mode = .collecting ∧ s.index = 1 ∧ 1 ≤ s.index.val ∧
      ([] : List Byte).length = min s.index.val 30 - 1 ∧ s.acc = 0xFFFF#16 - BitVec.ofNat 16 (0x20 + byteSum []) :=
  ⟨_, Reachable.step (Reachable.start [.present (feedInput 0x20)]) rfl, by decide⟩
theorem witness_canonical :
    Memory.wf bufS31 = true ∧ Memory.wf [] = true ∧ ∃ t, step (atLast []) = .next t := ⟨by decide, by decide, _, rfl⟩
theorem witness_equal_buffers : bufS31.wf = true ∧ bufS31.toBytes = bufS31.toBytes := ⟨by decide, rfl⟩
theorem witness_agree :
    atOne.Agree { atOne with buf := [(0, 0x20), (7, 0x99)] } ∧
    atOne.pending = ({ atOne with buf := [(0, 0x20), (7, 0x99)] } : State).pending ∧
    atOne.buf ≠ ({ atOne with buf := [(0, 0x20), (7, 0x99)] } : State).buf := by
  refine ⟨⟨rfl, rfl, rfl, ?_⟩, rfl, by decide⟩
  decide
theorem witness_message_emitted :
    (atLast [.present (feedInput 0xF3)]).pending = .present (feedInput 0xF3) :: [] ∧
    (step (atLast [.present (feedInput 0xF3)]) = .next (nextOf (step (atLast [.present (feedInput 0xF3)])))) ∧
    (nextOf (step (atLast [.present (feedInput 0xF3)]))).outputs = [] ++ [some chS] := ⟨rfl, rfl, by decide⟩
theorem witness_collecting_any_index :
    atOne.mode = .collecting ∧ atOne.index ≠ 31 ∧ (1 : Addr) ≠ 31 ∧ (atLast []).mode = .collecting ∧ (atLast []).index = 31 := by
  decide
theorem witness_no_sync_bytes :
    State.reset.mode = .seeking ∧ (∀ b ∈ ([0x00, 0xFF, 0x21, 0x1F, 0x40] : List Byte), b ≠ 0x20#8) ∧
    ((bytesS.drop 1).take 30).length < 31 := by decide
theorem witness_run_lengths : 32 % 32 = 0 ∧ 33 % 32 ≠ 0 := by decide
theorem witness_collection :
    State.reset.mode = .seeking ∧ (bytesS.drop 1).length = 31 ∧ (∀ f ∈ [frameS, frameS], f.Valid) := by
  refine ⟨rfl, by decide, ?_⟩
  intro f hf
  have h : f = frameS := by simpa using hf
  exact h ▸ witness_valid.1
/-- `inps` before the input that is looked at: the collection's last byte still to come, and in mid-collection. -/
theorem witness_collection_inputs :
    let idle : Input := { rst := false, inValid := false, inByte := 0x20 }
    let inps := idle :: (bytesS.tail.take 30).map feedInput
    atOne.mode = .collecting ∧ (∀ i ∈ inps, i.rst = false) ∧ (∀ i ∈ [idle, idle], i.rst = false) ∧
    atOne.index.val + fedCount inps = 31 ∧ atOne.index.val + fedCount [idle, idle] = 1 := by decide
set_option maxRecDepth 4000 in
/-- Two messages, with RESET and IDLE steps between them. -/
theorem witness_two_messages :
    let other : List Input :=
      [{ rst := true, inValid := true, inByte := 0x20 }, { rst := false, inValid := false, inByte := 0x20 }]
    let t := stepInputs (bytesS.map feedInput ++ other ++ bytesS.map feedInput) State.reset
    State.reset.mode = .seeking ∧ t.outputs[31]? = some (some chS) ∧ t.outputs[65]? = some (some chS) := by
  decide

end Sys2Proof.Tests
end

namespace Sys2Proof.Machine

/-! ### The buffer and `index` -/

theorem Memory.toBytes_write (m : Memory) (i : Addr) (b : Byte) : (m.write i b).toBytes = m.toBytes.set i.val b := by
  apply List.ext_getElem
  · simp
  · intro k h₁ _
    simp [List.getElem_set, Memory.read_write, Fin.ext_iff]

/-- The bytes up to offset `i` after a write there: those below it and the written one. -/
theorem Memory.take_toBytes_write (m : Memory) (i : Addr) (b : Byte) :
    (m.write i b).toBytes.take (i.val + 1) = m.toBytes.take i.val ++ [b] := by
  have hi : i.val < m.toBytes.length := by simp
  rw [Memory.toBytes_write, List.take_succ_eq_append_getElem (by simp), List.getElem_set_self,
    List.take_set_of_le le_rfl]

/-- 42_checksum.md R101: a byte stored below offset 30 is subtracted, the byte at 30 is not. -/
theorem accAfter_write (m : Memory) (i : Addr) (b : Byte) :
    accAfter (m.write i b) (i.val + 1) =
      if i.val ≤ 29 then accAfter m i.val - b.zeroExtend 16 else accAfter m i.val := by
  unfold accAfter
  simp only [Config.ckLen]
  split
  next h =>
    rw [min_eq_left (by omega), min_eq_left (by omega), Memory.take_toBytes_write, byteSum_append, byteSum_singleton]
    bv_omega
  next h =>
    rw [min_eq_right (by omega), min_eq_right (by omega), Memory.toBytes_write, List.take_set_of_le (by omega)]

/-- Writing the same byte at offset `i` to buffers that agree below `i` makes them agree up to `i`. -/
theorem Memory.write_agree {m m' : Memory} {i : Addr} (b : Byte)
    (h : ∀ k : Addr, k.val < i.val → m.read k = m'.read k) (k : Addr) (hk : k.val ≤ i.val) :
    (m.write i b).read k = (m'.write i b).read k := by
  by_cases hki : k = i
  · subst hki; simp
  · have hlt : k.val < i.val := lt_of_le_of_ne hk fun e => hki (Fin.ext e)
    rw [Memory.read_write_of_ne _ _ hki, Memory.read_write_of_ne _ _ hki, h k hlt]

/-- The extractor reads no cell at offset 30 or above (43_extraction.md R110). -/
theorem extract_congr {m m' : Memory} (h : ∀ k : Addr, k.val < 30 → m.read k = m'.read k) :
    extract m = extract m' := by
  apply Vector.ext
  intro c hc
  have hlo := h (WordSlot.low (channelSlot ⟨c, hc⟩)) (by simp [WordSlot.low, channelSlot, Config.payOff]; omega)
  have hhi := h (WordSlot.high (channelSlot ⟨c, hc⟩)) (by simp [WordSlot.high, channelSlot, Config.payOff]; omega)
  simp [extract, Memory.readWord, hlo, hhi]

/-- Below 31 the 5-bit `index` does not wrap. -/
theorem val_index_succ {i : Fin 32} (h : i.val ≤ 30) : (i + 1).val = i.val + 1 :=
  Fin.val_add_one_of_lt (Fin.lt_def.2 (Nat.lt_succ_of_le h))

/-! ### The step as `step` of the pseudocode -/

/-- The inputs that the next step is given and what the caller presents after it: an IDLE step when nothing is
presented (assumption log 1), the feed of byte 0 for a `FRAME` item with its other 31 bytes still to come (log 3). -/
def nextInput : List Item → Input × List Item
  | []                   => (idleInput, [])
  | .present inp :: rest => (inp, rest)
  | .frame f :: rest     => (feedInput f.sync, feedItems (f.bytes.drop 1) ++ rest)

/-- Every step is `step` of 40_feed_and_seeking.md R80 on the inputs presented next. -/
theorem step_eq_stepInput (s : State) :
    step s = .next (stepInput (nextInput s.pending).1 (s.withPending (nextInput s.pending).2)) := by
  cases h : s.pending with
  | nil =>
    have hs : s.withPending [] = s := by rw [← h]; rfl
    rw [step_of_nil h, nextInput, hs]; rfl
  | cons item rest =>
    cases item with
    | present inp => exact step_of_present h
    | frame f     => exact step_of_frame h

theorem runSteps_succ (n : Nat) (s : State) :
    runSteps (n + 1) s =
      runSteps n (stepInput (nextInput s.pending).1 (s.withPending (nextInput s.pending).2)) := by
  rw [runSteps, step_eq_stepInput]

/-- What `stepInput` does, said once: RESET, no byte, or the feed of one (60_exceptions.md R123). -/
theorem stepInput_cases (inp : Input) :
    (∀ s, stepInput inp s = opReset s) ∨ (∀ s, stepInput inp s = opIdle s) ∨
    (∀ s, stepInput inp s = feed inp.inByte s) := by
  cases hr : inp.rst with
  | true => exact .inl fun s => by simp [stepInput, hr]
  | false =>
    cases hv : inp.inValid with
    | false => exact .inr (.inl fun s => by simp [stepInput, hr, hv])
    | true  => exact .inr (.inr fun s => by simp [stepInput, hr, hv])

@[simp] theorem stepInput_pending (inp : Input) (s : State) : (stepInput inp s).pending = s.pending := by
  rcases stepInput_cases inp with e | e | e <;> simp [e]

/-! ### RESET (10_state.md R35) -/

theorem exec_reset (s : State) : exec .reset s = .next (opReset s) := rfl

/-- Settles O15: the reset values are the definition's, and RESET's laws give the same four. -/
theorem resetStateHasTheResetValues : Obligations.ResetStateHasTheResetValues := by
  refine ⟨rfl, rfl, rfl, Memory.read_nil, fun s t h => ?_⟩
  obtain rfl : opReset s = t := by simpa [exec_reset] using h
  exact ⟨rfl, rfl, rfl, rfl, rfl⟩

/-! ### Stale cells (10_state.md R33) -/

/-- `f` does the same to states that agree: one output, equal on both sides, and states that agree again. -/
def KeepsAgreement (f : State → State) : Prop :=
  ∀ s t : State, s.Agree t →
    ∃ o, (f s).outputs = s.outputs ++ [o] ∧ (f t).outputs = t.outputs ++ [o] ∧ (f s).Agree (f t)

theorem State.Agree.withPending {s t : State} (h : s.Agree t) (items : List Item) :
    (s.withPending items).Agree (t.withPending items) := h

/-- With `index` 0 no cell counts. -/
theorem agree_of_index_zero {s t : State} (hm : s.mode = t.mode) (hi : s.index = 0) (hi' : t.index = 0)
    (ha : s.acc = t.acc) : s.Agree t :=
  ⟨hm, hi.trans hi'.symm, ha, fun k hk => by simp [hi] at hk⟩

theorem opReset_keepsAgreement : KeepsAgreement opReset := fun _ _ _ =>
  ⟨none, rfl, rfl, agree_of_index_zero rfl rfl rfl rfl⟩

theorem opIdle_keepsAgreement : KeepsAgreement opIdle := fun _ _ h => ⟨none, rfl, rfl, h⟩

theorem opSeekSkip_keepsAgreement (b : Byte) : KeepsAgreement (opSeekSkip b) := fun _ _ h => ⟨none, rfl, rfl, h⟩

theorem opSeekSync_keepsAgreement (b : Byte) : KeepsAgreement (opSeekSync b) := by
  intro s t _
  refine ⟨none, rfl, rfl, rfl, rfl, rfl, fun k hk => ?_⟩
  have hk0 : k.val ≤ (0 : Addr).val := Nat.le_of_lt_succ hk
  exact Memory.write_agree b (fun j hj => absurd hj (Nat.not_lt_zero _)) k hk0

/-- The stored byte is the one cell that `index` newly covers. -/
theorem opCollectStore_agree {s t : State} (h : s.Agree t) (hi : s.index.val ≤ 30) (b : Byte) :
    (opCollectStore s.index b s).Agree (opCollectStore t.index b t) := by
  obtain ⟨-, hix, hacc, hbuf⟩ := h
  refine ⟨by simp, by simp [hix], by simp [hix, hacc], fun k hk => ?_⟩
  have hnext := val_index_succ hi
  rw [opCollectStore_index, hnext] at hk
  rw [opCollectStore_buf, opCollectStore_buf, ← hix]
  exact Memory.write_agree b hbuf k (Nat.le_of_lt_succ hk)

/-- The completing step reads cells 2 to 30 and the byte it is fed, none of them stale. -/
theorem completing_agree {s t : State} (h : s.Agree t) (hi : s.index.val = 31) (b : Byte) :
    ckOk s b = ckOk t b ∧ extract (s.buf.write 31 b) = extract (t.buf.write 31 b) := by
  obtain ⟨-, -, hacc, hbuf⟩ := h
  have hbuf : ∀ k : Addr, k.val < (31 : Addr).val → s.buf.read k = t.buf.read k := fun k hk => hbuf k (hi ▸ hk)
  refine ⟨by simp [ckOk, rxWord, hacc, hbuf 30 (by decide)], extract_congr fun k hk => ?_⟩
  exact Memory.write_agree b hbuf k (by simp; omega)

theorem feed_keepsAgreement (b : Byte) : KeepsAgreement (feed b) := by
  intro s t h
  have ⟨hm, hix, _, _⟩ := h
  rcases feed_cases b s with ⟨hs, hb, e⟩ | ⟨hs, hb, e⟩ | ⟨hs, hi, e⟩ | ⟨hs, hi, hc, e⟩ | ⟨hs, hi, hc, e⟩
  · subst hb
    rw [e, feed_seeking_sync (hm ▸ hs)]
    exact opSeekSync_keepsAgreement _ s t h
  · rw [e, feed_seeking_skip (hm ▸ hs) hb]
    exact opSeekSkip_keepsAgreement b s t h
  · rw [e, feed_collecting_store (hm ▸ hs) (hix ▸ hi)]
    exact ⟨none, by simp, by simp, opCollectStore_agree h hi b⟩
  · obtain ⟨hck, hext⟩ := completing_agree h hi b
    rw [e, feed_collecting_last (hm ▸ hs) (hix ▸ Fin.ext hi), if_pos (hck ▸ hc)]
    exact ⟨some (extract (s.buf.write 31 b)), rfl, by rw [opCollectEmit_outputs, hext], agree_of_index_zero rfl rfl rfl rfl⟩
  · obtain ⟨hck, -⟩ := completing_agree h hi b
    rw [e, feed_collecting_last (hm ▸ hs) (hix ▸ Fin.ext hi), if_neg (by simp [← hck, hc])]
    exact ⟨none, rfl, rfl, agree_of_index_zero rfl rfl rfl rfl⟩

theorem stepInput_keepsAgreement (inp : Input) : KeepsAgreement (stepInput inp) := by
  intro s t h
  rcases stepInput_cases inp with e | e | e <;> rw [e s, e t]
  · exact opReset_keepsAgreement s t h
  · exact opIdle_keepsAgreement s t h
  · exact feed_keepsAgreement inp.inByte s t h

/-- Settles O33, by induction on the number of steps: each step keeps the agreement and gives equal outputs. -/
theorem staleCellsCannotBeObserved : Obligations.StaleCellsCannotBeObserved := by
  unfold Obligations.StaleCellsCannotBeObserved
  intro s₁ s₂ n
  induction n generalizing s₁ s₂ with
  | zero => exact fun h hp => ⟨s₁, s₂, [], rfl, rfl, by simp, by simp, h, hp⟩
  | succ n ih =>
    intro h hp
    obtain ⟨o, ho₁, ho₂, hstep⟩ :=
      stepInput_keepsAgreement (nextInput s₁.pending).1 _ _ (h.withPending (nextInput s₁.pending).2)
    obtain ⟨t₁, t₂, out, hr₁, hr₂, hout₁, hout₂, hrest⟩ := ih _ _ hstep (by simp)
    refine ⟨t₁, t₂, o :: out, ?_, ?_, ?_, ?_, hrest⟩
    · rw [runSteps_succ, hr₁]
    · rw [runSteps_succ, ← hp, hr₂]
    · rw [hout₁, ho₁]; simp
    · rw [hout₂, ho₂]; simp

/-! ### The invariant of the step boundaries (10_state.md R25, R29, R36) -/

/-- Seeking states of the invariant. -/
theorem inv_of_seeking {s : State} (hwf : s.buf.wf = true) (hm : s.mode = .seeking) (hi : s.index = 0)
    (ha : s.acc = Config.ckInit) : s.Inv :=
  ⟨hwf, fun _ => ⟨hi, ha⟩, fun h => by simp [hm] at h⟩

/-- Collecting states of the invariant. -/
theorem inv_of_collecting {s : State} (hwf : s.buf.wf = true) (hm : s.mode = .collecting) (hi : 1 ≤ s.index.val)
    (h0 : s.buf.read 0 = Config.sync) (ha : s.acc = accAfter s.buf s.index.val) : s.Inv :=
  ⟨hwf, fun h => by simp [hm] at h, fun _ => ⟨hi, h0, ha⟩⟩

theorem inv_reset (items : List Item) : (State.reset.withPending items).Inv := inv_of_seeking rfl rfl rfl rfl

theorem opSeekSync_inv {s : State} (hwf : s.buf.wf = true) : (opSeekSync Config.sync s).Inv := by
  refine inv_of_collecting (Memory.wf_write hwf 0 Config.sync) rfl le_rfl (Memory.read_write_self s.buf 0 Config.sync) ?_
  have h := accAfter_write s.buf 0 Config.sync
  have h0 : accAfter s.buf 0 = Config.ckInit := by simp [accAfter, byteSum]
  simp only [Fin.val_zero, Nat.zero_le, if_true, h0] at h
  exact h.symm

theorem opCollectStore_inv {s : State} (hs : s.Inv) (hm : s.mode = .collecting) (hi : s.index.val ≤ 30) (b : Byte) :
    (opCollectStore s.index b s).Inv := by
  obtain ⟨hwf, -, hcol⟩ := hs
  obtain ⟨h1, h0, hacc⟩ := hcol hm
  have hnext := val_index_succ hi
  have hne : (0 : Addr) ≠ s.index := fun e => by simp [← e] at h1
  refine inv_of_collecting ?_ (by simp) (by simp [hnext]) ?_ ?_
  · rw [opCollectStore_buf]; exact Memory.wf_write hwf _ _
  · rw [opCollectStore_buf, Memory.read_write_of_ne _ _ hne, h0]
  · rw [opCollectStore_acc, opCollectStore_buf, opCollectStore_index, hnext, accAfter_write, hacc]

theorem feed_inv {s : State} (hs : s.Inv) (b : Byte) : (feed b s).Inv := by
  have ⟨hwf, _, _⟩ := hs
  rcases feed_cases b s with ⟨-, hb, e⟩ | ⟨-, -, e⟩ | ⟨hm, hi, e⟩ | ⟨-, -, -, e⟩ | ⟨-, -, -, e⟩ <;> rw [e]
  · subst hb; exact opSeekSync_inv hwf
  · exact hs
  · exact opCollectStore_inv hs hm hi b
  · exact inv_of_seeking (Memory.wf_write hwf _ _) rfl rfl rfl
  · exact inv_of_seeking (Memory.wf_write hwf _ _) rfl rfl rfl

theorem stepInput_inv {s : State} (hs : s.Inv) (inp : Input) : (stepInput inp s).Inv := by
  rcases stepInput_cases inp with e | e | e <;> rw [e s]
  · exact inv_of_seeking rfl rfl rfl rfl
  · exact hs
  · exact feed_inv hs inp.inByte

theorem State.Inv.withPending {s : State} (h : s.Inv) (items : List Item) : (s.withPending items).Inv := h

theorem step_inv {s t : State} (hs : s.Inv) (h : step s = .next t) : t.Inv := by
  rw [step_eq_stepInput] at h
  obtain rfl := Host.Outcome.next.inj h
  exact stepInput_inv (hs.withPending _) _

theorem Reachable.inv {s : State} (h : Reachable s) : s.Inv := by
  induction h with
  | start items => exact inv_reset items
  | step _ hst ih => exact step_inv ih hst

/-! ### The reachable control states (10_state.md R36) -/

/-- `acc` in a collection, with the sync marker taken out of the sum: some `min(i, 30) - 1` further bytes. -/
theorem accAfter_of_sync {m : Memory} (h0 : m.read 0 = Config.sync) {i : Nat} (hi : 1 ≤ i) :
    ∃ bs : List Byte, bs.length = min i 30 - 1 ∧ accAfter m i = 0xFFFF#16 - BitVec.ofNat 16 (0x20 + byteSum bs) := by
  have hcons : m.toBytes = Config.sync :: m.toBytes.tail := by
    rw [← h0]; rfl
  refine ⟨m.toBytes.tail.take (min i 30 - 1), by simp, ?_⟩
  have htake : m.toBytes.take (min i 30) = Config.sync :: m.toBytes.tail.take (min i 30 - 1) := by
    conv_lhs => rw [hcons]
    exact List.take_cons (by omega)
  simp only [accAfter, Config.ckLen, htake]
  rfl

/-- A reachable state that is about to be fed bytes reaches the state after them. -/
theorem reachable_feedAll (bs : List Byte) (rest : List Item) {s : State}
    (h : Reachable (s.withPending (feedItems bs ++ rest))) : Reachable ((feedAll bs s).withPending rest) := by
  induction bs generalizing s with
  | nil => exact h
  | cons b bs ih =>
    have hstep : step (s.withPending (feedItems (b :: bs) ++ rest)) =
        .next ((stepInput (feedInput b) s).withPending (feedItems bs ++ rest)) := by
      rw [step_of_present rfl, ← stepInput_withPending]
      rfl
    exact ih (h.step hstep)

theorem reachable_feedAll_reset (bs : List Byte) : Reachable ((feedAll bs State.reset).withPending []) :=
  reachable_feedAll bs [] (Reachable.start _)

/-- Feeding the sync marker, the given bytes and, for `index` 31, any byte at offset 30 reaches every Collecting
triple of R36. -/
theorem collecting_reachable {ix : Fin 32} (hi : 1 ≤ ix.val) {bs : List Byte} (hl : bs.length = min ix.val 30 - 1) :
    ∃ s, Reachable s ∧ s.mode = .collecting ∧ s.index = ix ∧
      s.acc = 0xFFFF#16 - BitVec.ofNat 16 (0x20 + byteSum bs) := by
  obtain ⟨pad, hpad⟩ : ∃ pad : List Byte, pad.length = ix.val - 1 - bs.length :=
    ⟨List.replicate (ix.val - 1 - bs.length) 0, List.length_replicate⟩
  have hc := collected_of_seeking (s := State.reset) rfl (bs ++ pad) (by simp; omega)
  refine ⟨_, reachable_feedAll_reset (Config.sync :: (bs ++ pad)), hc.mode, Fin.ext ?_, ?_⟩
  · rw [State.withPending_index, hc.index]; simp; omega
  · have htake : (Config.sync :: (bs ++ pad)).take 30 = Config.sync :: bs := by
      by_cases h30 : ix.val ≤ 30
      · have hnil : pad = [] := List.length_eq_zero_iff.1 (by omega)
        rw [hnil, List.append_nil, List.take_of_length_le (by simp; omega)]
      · rw [← List.cons_append, List.take_left' (by simp; omega)]
    rw [State.withPending_acc, hc.acc, htake]
    rfl

/-- Settles O31: one direction is the invariant of the step boundaries, the other feeds the bytes asked for. -/
theorem reachableControlStates : Obligations.ReachableControlStates := by
  unfold Obligations.ReachableControlStates
  refine ⟨fun md ix a => ⟨?_, ?_⟩, fun s hs hm => ?_⟩
  · rintro ⟨s, hs, rfl, rfl, rfl⟩
    obtain ⟨-, hseek, hcol⟩ := hs.inv
    cases hm : s.mode with
    | seeking =>
      obtain ⟨hi, ha⟩ := hseek hm
      exact .inl ⟨rfl, hi, ha⟩
    | collecting =>
      obtain ⟨hi, h0, ha⟩ := hcol hm
      exact .inr ⟨rfl, hi, ha ▸ accAfter_of_sync h0 hi⟩
  · rintro (⟨rfl, rfl, rfl⟩ | ⟨rfl, hi, bs, hl, rfl⟩)
    · exact ⟨_, .start [], rfl, rfl, rfl⟩
    · exact collecting_reachable hi hl
  · obtain ⟨-, -, hcol⟩ := hs.inv
    obtain ⟨-, h0, -⟩ := hcol hm
    exact h0

end Sys2Proof.Machine

namespace Sys2Proof.Machine

/-! ### The only store (20_memory.md R44) -/

/-- SEEK_SYNC stores at offset 0, SEEK_SKIP nowhere. -/
theorem feed_buf_of_seeking {s : State} (hm : s.mode = .seeking) (b : Byte) :
    (feed b s).buf = if b = Config.sync then s.buf.write 0 b else s.buf := by
  rcases feed_cases b s with ⟨-, hb, e⟩ | ⟨-, hb, e⟩ | ⟨hc, -⟩ | ⟨hc, -⟩ | ⟨hc, -⟩
  · rw [e, if_pos hb, opSeekSync_buf]
  · rw [e, if_neg hb, opSeekSkip_buf]
  all_goals simp [hm] at hc

/-- Every Collecting transition stores at `index`, the completing ones at offset 31, which is then `index`. -/
theorem feed_buf_of_collecting {s : State} (hm : s.mode = .collecting) (b : Byte) :
    (feed b s).buf = s.buf.write s.index b := by
  have last (hi : s.index.val = 31) : s.index = 31 := Fin.ext hi
  rcases feed_cases b s with ⟨hs, -⟩ | ⟨hs, -⟩ | ⟨-, -, e⟩ | ⟨-, hi, -, e⟩ | ⟨-, hi, -, e⟩
  · simp [hm] at hs
  · simp [hm] at hs
  · rw [e, opCollectStore_buf]
  · rw [e, last hi, opCollectEmit_buf]
  · rw [e, last hi, opCollectDrop_buf]

/-- A cell after a `feed`: the fed byte where a byte is stored, and elsewhere what it was. -/
theorem read_feed (b : Byte) (s : State) (k : Addr) :
    (feed b s).buf.read k =
      if s.mode = .seeking ∧ b = Config.sync ∧ k = 0 then b
      else if s.mode = .collecting ∧ k = s.index then b
      else s.buf.read k := by
  cases hm : s.mode with
  | seeking =>
    rw [feed_buf_of_seeking hm]
    by_cases hb : b = Config.sync <;> simp [hb, Memory.read_write, eq_comm]
  | collecting => simp [feed_buf_of_collecting hm, Memory.read_write, eq_comm]

/-- Settles O37: RESET clears every cell, no byte means no store, and a fed byte is stored as `read_feed` says. -/
theorem onlyStoreIsAtIndex : Obligations.OnlyStoreIsAtIndex := by
  unfold Obligations.OnlyStoreIsAtIndex
  intro s inp rest h
  refine ⟨_, step_of_present h, fun k => ?_⟩
  cases hr : inp.rst with
  | true => simp [stepInput, hr]
  | false =>
    cases hv : inp.inValid with
    | false => simp [stepInput, hr, hv]
    | true =>
      have hfeed : stepInput inp (s.withPending rest) = feed inp.inByte (s.withPending rest) := by
        simp [stepInput, hr, hv]
      rw [hfeed, read_feed]
      simp only [Bool.false_eq_true, if_false, true_and]
      rfl

end Sys2Proof.Machine

namespace Sys2Proof
open Machine

/-! ### Exactly one row (30_encoding.md R67, R68, R73) -/

theorem Sel.ofWord_ckOk (w : BitVec 17) : (Sel.ofWord w).ckOk = w.getLsbD 16 := rfl
theorem Sel.ofWord_rst (w : BitVec 17) : (Sel.ofWord w).rst = w.getLsbD 15 := rfl
theorem Sel.ofWord_inValid (w : BitVec 17) : (Sel.ofWord w).inValid = w.getLsbD 14 := rfl

theorem Sel.ofWord_seeking_iff (w : BitVec 17) : (Sel.ofWord w).mode = .seeking ↔ w.getLsbD 13 = false := by
  cases h : w.getLsbD 13 <;> simp only [Sel.ofWord, h, Mode.ofBit, reduceCtorEq]

theorem Sel.ofWord_collecting_iff (w : BitVec 17) : (Sel.ofWord w).mode = .collecting ↔ w.getLsbD 13 = true := by
  cases h : w.getLsbD 13 <;> simp only [Sel.ofWord, h, Mode.ofBit, reduceCtorEq]

/-- A row of R73 that applies is the row the decoder reads, so no two rows apply to one word: the row's conditions
settle every test `decodeSel` makes on the way to it. -/
theorem op?_decodeWord_of_applies {o : Op} {w : BitVec 17} (h : o.applies w = true) :
    (decodeWord w).op? = some o := by
  rw [Op.applies_iff] at h
  cases o <;>
    simp only [← Sel.ofWord_rst, ← Sel.ofWord_inValid, ← Sel.ofWord_seeking_iff, ← Sel.ofWord_collecting_iff,
      ← Sel.ofWord_ckOk] at h
  case reset => simp [decodeWord, decodeSel, h, Instr.op?]
  case idle =>
    obtain ⟨hr, hv⟩ := h
    simp [decodeWord, decodeSel, hr, hv, Instr.op?]
  case seekSync | seekSkip =>
    obtain ⟨hr, hv, hm, hb⟩ := h
    simp [decodeWord, decodeSel, hr, hv, hm, hb, Instr.op?]
  case collectStore =>
    obtain ⟨hr, hv, hm, hi⟩ := h
    simp [decodeWord, decodeSel, hr, hv, hm, hi, Instr.op?]
  case collectEmit | collectDrop =>
    obtain ⟨hr, hv, hm, hi, hc⟩ := h
    simp [decodeWord, decodeSel, hr, hv, hm, hi, hc, Instr.op?]

/-- The rows of R73 cover every word. -/
theorem exists_applies (w : BitVec 17) : ∃ o : Op, o.applies w = true := by
  have hidx := (Sel.ofWord w).index.isLt
  simp only [Op.applies_iff]
  cases hr : w.getLsbD 15 with
  | true => exact ⟨.reset, rfl⟩
  | false =>
    cases hv : w.getLsbD 14 with
    | false => exact ⟨.idle, rfl, rfl⟩
    | true =>
      cases hm : w.getLsbD 13 with
      | false =>
        by_cases hb : (Sel.ofWord w).inByte = Config.sync
        · exact ⟨.seekSync, rfl, rfl, rfl, hb⟩
        · exact ⟨.seekSkip, rfl, rfl, rfl, hb⟩
      | true =>
        by_cases hi : (Sel.ofWord w).index.val ≤ 30
        · exact ⟨.collectStore, rfl, rfl, rfl, hi⟩
        · have h31 : (Sel.ofWord w).index.val = 31 := by omega
          cases hc : w.getLsbD 16 with
          | true  => exact ⟨.collectEmit, rfl, rfl, rfl, h31, rfl⟩
          | false => exact ⟨.collectDrop, rfl, rfl, rfl, h31, rfl⟩

/-- Settles O3: the rows cover the words, and a row that applies is the decoder's. -/
theorem selectionRowsPartitionTheWords : Obligations.SelectionRowsPartitionTheWords := by
  intro w
  obtain ⟨o, ho⟩ := exists_applies w
  have hdec := op?_decodeWord_of_applies ho
  refine ⟨o, hdec, fun o' => ⟨fun h => ?_, fun h => h ▸ ho⟩⟩
  exact Option.some.inj ((op?_decodeWord_of_applies h).symm.trans hdec)

/-- Where `index` is as the columns of R67 have it at every step boundary, the row of R67 and the row of R73 agree. -/
theorem Op.selects_iff_applies {x : Sel} (hs : x.mode = .seeking → x.index = 0)
    (hc : x.mode = .collecting → 1 ≤ x.index.val) (o : Op) : o.selects x ↔ o.applies x.toWord = true := by
  obtain ⟨w, rfl⟩ : ∃ w, x = Sel.ofWord w := ⟨x.toWord, (Sel.ofWord_toWord x).symm⟩
  rw [Sel.ofWord_seeking_iff] at hs
  rw [Sel.ofWord_collecting_iff] at hc
  rw [Sel.toWord_ofWord, Op.applies_iff]
  cases o with
  | reset | idle => exact Iff.rfl
  | seekSync | seekSkip =>
    simp only [Op.selects, Sel.ofWord_seeking_iff]
    exact ⟨fun ⟨hr, hv, hm, _, hb⟩ => ⟨hr, hv, hm, hb⟩, fun ⟨hr, hv, hm, hb⟩ => ⟨hr, hv, hm, hs hm, hb⟩⟩
  | collectStore =>
    simp only [Op.selects, Sel.ofWord_collecting_iff]
    exact ⟨fun ⟨hr, hv, hm, _, hi⟩ => ⟨hr, hv, hm, hi⟩, fun ⟨hr, hv, hm, hi⟩ => ⟨hr, hv, hm, hc hm, hi⟩⟩
  | collectEmit | collectDrop =>
    simp only [Op.selects, Sel.ofWord_collecting_iff]
    exact Iff.rfl

/-- Settles O4: the invariant gives the `index` columns of R67, so its rows are those of R73, which partition. -/
theorem exactlyOneRowAtEveryBoundary : Obligations.ExactlyOneRowAtEveryBoundary := by
  rintro s inp ⟨-, hseek, hcoll⟩
  obtain ⟨o, hdec, hrow⟩ := selectionRowsPartitionTheWords (selOf s inp).toWord
  rw [decodeWord, Sel.ofWord_toWord] at hdec
  refine ⟨o, hdec, fun o' => ?_⟩
  exact (Op.selects_iff_applies (fun h => (hseek h).1) (fun h => (hcoll h).1) o').trans (hrow o')

end Sys2Proof

namespace Sys2Proof

/-! ### The packed message in the frame (30_encoding.md R61, R62) -/

/-- Bits `8k` and up of the number are the bytes from `k` on. -/
theorem leNat_div (bs : List Byte) (k : Nat) : leNat bs / 256 ^ k = leNat (bs.drop k) := by
  induction k generalizing bs with
  | zero => simp
  | succ k ih =>
    cases bs with
    | nil => simp [leNat]
    | cons b bs =>
      have hb : leNat (b :: bs) / 256 = leNat bs := by
        have := b.isLt; rw [leNat]; omega
      rw [pow_succ', ← Nat.div_div_eq_div_mul, hb, ih, List.drop_succ_cons]

/-- The low `8k` bits of the number are its first `k` bytes. -/
theorem leNat_mod (bs : List Byte) (k : Nat) : leNat bs % 256 ^ k = leNat (bs.take k) := by
  induction k generalizing bs with
  | zero => simp [leNat, Nat.mod_one]
  | succ k ih =>
    cases bs with
    | nil => simp [leNat]
    | cons b bs =>
      rw [List.take_succ_cons, leNat, leNat, ← ih bs, pow_succ', Nat.mod_mul]
      have := b.isLt
      have h1 : (b.toNat + 256 * leNat bs) % 256 = b.toNat := by omega
      have h2 : (b.toNat + 256 * leNat bs) / 256 = leNat bs := by omega
      rw [h1, h2]

/-- The words packed are their bytes, low byte first, as one number. -/
theorem leNat_flatMap_leBytes (ws : List Word) : leNat (ws.flatMap leBytes) = packWords ws := by
  induction ws with
  | nil => rfl
  | cons w ws ih =>
    simp only [List.flatMap_cons, leBytes, List.cons_append, List.nil_append, leNat, packWords, ih,
      toNat_loByte, toNat_hiByte]
    omega

/-- Word `c` stands in bits `16c+15..16c` of the packing (R62). -/
theorem packWords_slot (ws : List Word) (c : Nat) (h : c < ws.length) :
    packWords ws / 2 ^ (16 * c) % 2 ^ 16 = ws[c].toNat := by
  induction ws generalizing c with
  | nil => simp at h
  | cons w ws ih =>
    have hw := w.isLt
    cases c with
    | zero => simp only [packWords, List.getElem_cons_zero]; omega
    | succ c =>
      have htail : packWords (w :: ws) / 2 ^ 16 = packWords ws := by rw [packWords]; omega
      rw [Nat.mul_succ, Nat.add_comm, pow_add, ← Nat.div_div_eq_div_mul, htail]
      exact ih c (Nat.lt_of_succ_lt_succ h)

end Sys2Proof

namespace Sys2Proof.Machine

/-- 43_extraction.md R110: offsets 2 to 29 hold the channels, low byte first. -/
theorem Memory.payload_eq_flatMap_extract (m : Memory) : (m.toBytes.drop 2).take 28 = (extract m).toList.flatMap leBytes := by
  have hlen := length_flatMap_le (extract m).toList
  simp only [Vector.length_toList] at hlen
  refine List.ext_getElem (by simp [hlen]) fun k hk _ => ?_
  have hk28 : k < 28 := by simpa using hk
  obtain ⟨c, hc⟩ : ∃ c : Fin 14, k = 2 * c.val ∨ k = 2 * c.val + 1 :=
    ⟨⟨k / 2, by omega⟩, by simp only; omega⟩
  have hlane := get_extract m c (lo := ⟨2 + 2 * c.val, by omega⟩) (hi := ⟨2 + 2 * c.val + 1, by omega⟩)
    (by simp only; omega) (by simp only; omega)
  obtain ⟨hlo, hhi⟩ := getElem?_flatMap_le (extract m).toList c.val (by simp)
  simp only [Vector.getElem_toList, ← Vector.get_eq_getElem, hlane, loByte_wordOf, hiByte_wordOf] at hlo hhi
  rw [List.getElem_take, List.getElem_drop, Memory.getElem_toBytes]
  obtain rfl | rfl := hc
  · exact ((List.getElem_eq_iff _).2 hlo).symm
  · exact ((List.getElem_eq_iff _).2 hhi).symm

/-- Settles O26: cutting bits out of `F` is cutting bytes out of the buffer, and those are the channels'. -/
theorem packedMessageIsASliceOfTheFrame : Obligations.PackedMessageIsASliceOfTheFrame := by
  refine ⟨fun m c => ?_, fun m => ?_⟩
  · rw [packWords_slot _ _ (by simp)]; simp [Vector.get_eq_getElem]
  · calc packWords (extract m).toList
        = leNat ((m.toBytes.drop 2).take 28) := by rw [m.payload_eq_flatMap_extract, leNat_flatMap_leBytes]
      _ = m.frameNumber / 256 ^ 2 % 256 ^ 28 := by rw [← leNat_mod, ← leNat_div, Memory.frameNumber]
      _ = m.frameNumber / 2 ^ 16 % 2 ^ 224 := by norm_num

end Sys2Proof.Machine

namespace Sys2Proof.Machine

/-! ### A run of presented items as a fold (00_scope.md R8) -/

/-- Steps on presented inputs are the fold of `step` of 40_feed_and_seeking.md R80, which reads no further item. -/
theorem runSteps_inputItems (inps : List Input) (rest : List Item) (s : State) :
    runSteps inps.length (s.withPending (inputItems inps ++ rest)) = .next ((stepInputs inps s).withPending rest) := by
  induction inps generalizing s with
  | nil => rfl
  | cons inp inps ih =>
    have hhead : stepInput inp (s.withPending (inputItems inps ++ rest)) =
        (stepInput inp s).withPending (inputItems inps ++ rest) := stepInput_withPending ..
    rw [List.length_cons, runSteps_succ]
    exact (congrArg (runSteps inps.length) hhead).trans (ih (stepInput inp s))

/-- Steps on presented bytes are the fold of `feed`. -/
theorem runSteps_feedItems (bs : List Byte) (rest : List Item) (s : State) :
    runSteps bs.length (s.withPending (feedItems bs ++ rest)) = .next ((feedAll bs s).withPending rest) := by
  have h := runSteps_inputItems (bs.map feedInput) rest s
  rwa [List.length_map, ← feedItems_eq, stepInputs_feed] at h

/-! ### IDLE steps (40_feed_and_seeking.md R84) -/

theorem exec_idle (s : State) : exec .idle s = .next (opIdle s) := rfl

/-- The message of a step joins those given before it; a None adds nothing. -/
theorem messages_of_outputs_append {s t : State} {o : Option Message} (h : t.outputs = s.outputs ++ [o]) :
    t.messages = s.messages ++ o.toList := by
  cases o <;> simp [State.messages, h]

/-- `s` and `t` are the same block that has given the same messages: they differ in how many Nones were given
between the messages, and in what is presented. -/
structure SameButNones (s t : State) : Prop where
  agree    : s.Agree t
  buf      : s.buf = t.buf
  messages : s.messages = t.messages

theorem SameButNones.refl (s : State) : SameButNones s s := ⟨⟨rfl, rfl, rfl, fun _ _ => rfl⟩, rfl, rfl⟩

/-- The buffer after a step is a function of the block and the input. -/
theorem stepInput_buf_congr {s t : State} (h : s.Agree t) (hb : s.buf = t.buf) (inp : Input) :
    (stepInput inp s).buf = (stepInput inp t).buf := by
  obtain ⟨hm, hi, -, -⟩ := h
  rcases stepInput_cases inp with e | e | e <;> rw [e s, e t]
  · rfl
  · exact hb
  · cases hs : s.mode with
    | seeking => rw [feed_buf_of_seeking hs, feed_buf_of_seeking (hm ▸ hs), hb]
    | collecting => rw [feed_buf_of_collecting hs, feed_buf_of_collecting (hm ▸ hs), hb, hi]

/-- The same input on both sides gives the same output and the same block. -/
theorem SameButNones.stepInput_both {s t : State} (h : SameButNones s t) (inp : Input) :
    SameButNones (stepInput inp s) (stepInput inp t) := by
  obtain ⟨o, hs, ht, hagree⟩ := stepInput_keepsAgreement inp s t h.agree
  refine ⟨hagree, stepInput_buf_congr h.agree h.buf inp, ?_⟩
  rw [messages_of_outputs_append hs, messages_of_outputs_append ht, h.messages]

/-- An IDLE step on one side only is not noticed. -/
theorem SameButNones.opIdle_left {s t : State} (h : SameButNones s t) : SameButNones (opIdle s) t :=
  ⟨h.agree, h.buf, by simpa [h.messages] using messages_of_outputs_append (opIdle_outputs s)⟩

/-- The inputs of an IDLE step: neither RESET nor a byte. -/
theorem stepInput_of_idle {inp : Input} (h : (inp.rst || inp.inValid) = false) (s : State) :
    stepInput inp s = opIdle s := by
  obtain ⟨hr, hv⟩ := Bool.or_eq_false_iff.1 h
  simp [stepInput, hr, hv]

/-- R84's consequence: deleting the IDLE steps of an input sequence. -/
theorem SameButNones.stepInputs_filter {s t : State} (h : SameButNones s t) (inps : List Input) :
    SameButNones (stepInputs inps s) (stepInputs (inps.filter fun i => i.rst || i.inValid) t) := by
  induction inps generalizing s t with
  | nil => exact h
  | cons inp inps ih =>
    cases hk : inp.rst || inp.inValid with
    | true =>
      rw [List.filter_cons, if_pos hk]
      exact ih (h.stepInput_both inp)
    | false =>
      rw [List.filter_cons, if_neg (by simp [hk])]
      refine ih (s := stepInput inp s) ?_
      rw [stepInput_of_idle hk]
      exact h.opIdle_left

/-- Settles O10: IDLE only gives a None, so a run and the run without its IDLE steps stay the same but for Nones. -/
theorem idleChangesNothing : Obligations.IdleChangesNothing := by
  unfold Obligations.IdleChangesNothing
  refine fun s => ⟨⟨_, exec_idle s, rfl, rfl, rfl, rfl, rfl, rfl⟩, fun b rest h => ?_, fun inps => ?_⟩
  · rw [step_of_present h, exec_idle, stepInput_of_idle rfl]
  · obtain ⟨⟨hm, hi, ha, -⟩, hb, hmsg⟩ := (SameButNones.refl s).stepInputs_filter inps
    have hrun (inps : List Input) := runSteps_inputItems inps [] s
    simp only [List.append_nil] at hrun
    exact ⟨_, _, hrun inps, hrun _, hm, hi, ha, hb, hmsg⟩

/-! ### Sync detection (40_feed_and_seeking.md R83, R85) -/

/-- Bytes other than the sync marker leave a decoder in Seeking as it was, one None each (R83). -/
theorem feedAll_skip {s : State} (hs : s.mode = .seeking) {bs : List Byte} (hbs : ∀ b ∈ bs, b ≠ Config.sync) :
    feedAll bs s = { s with outputs := s.outputs ++ List.replicate bs.length none } := by
  induction bs generalizing s with
  | nil => simp
  | cons b bs ih =>
    obtain ⟨hb, hbs⟩ := List.forall_mem_cons.1 hbs
    rw [feedAll_cons, feed_seeking_skip hs hb, ih (s := opSeekSkip b s) hs hbs]
    simp [opSeekSkip, State.emit, List.replicate_succ]

/-- Settles O40: the skipped bytes leave Seeking, and from there fewer than 32 bytes are a collection in progress. -/
theorem syncDetection : Obligations.SyncDetection := by
  unfold Obligations.SyncDetection
  intro s bs cs rest hs hbs hcs
  have hskip := feedAll_skip hs hbs
  have hseek : (feedAll bs s).mode = .seeking := by rw [hskip]; exact hs
  have hsync := collected_of_seeking hseek [] (by simp)
  have hall := collected_of_seeking hseek cs (by omega)
  have hrun := runSteps_feedItems (bs ++ [Config.sync]) (feedItems cs ++ rest) s
  rw [List.length_append, feedAll_append] at hrun
  refine ⟨_, _, hrun, hsync.mode, Fin.ext hsync.index, ?_, runSteps_feedItems cs rest _, hall.mode, hall.index, ?_⟩
  · rw [State.withPending_outputs, hsync.outputs, hskip]
    simp [List.replicate_succ']
  · rw [State.withPending_outputs, State.withPending_outputs, hsync.outputs]
    refine hall.outputs.trans ?_
    simp [List.replicate_succ]

/-! ### Sync markers only (40_feed_and_seeking.md R86) -/

/-- The checksum of thirty sync markers: 0xFFFF - 30 * 0x20. -/
theorem cksum_replicate_sync : cksum (List.replicate 30 Config.sync) = 0xFC3F#16 := by decide

/-- Thirty-two sync markers are a collection that is dropped: `rx` is 0x2020. -/
theorem feedAll_sync_frame {s : State} (hs : s.mode = .seeking) :
    (feedAll (List.replicate 32 Config.sync) s).mode = .seeking ∧
    (feedAll (List.replicate 32 Config.sync) s).outputs = s.outputs ++ List.replicate 32 none := by
  obtain ⟨hm, -, -, -, -, -, hdrop⟩ :=
    feedAll_collection hs (List.replicate 29 Config.sync) (by simp) Config.sync Config.sync
  have hwrong : cksum (List.replicate 30 Config.sync) ≠ wordOf Config.sync Config.sync := by
    rw [cksum_replicate_sync]; decide
  exact ⟨hm, hdrop hwrong⟩

/-- Any number of such collections in a row. -/
theorem feedAll_sync_frames {s : State} (hs : s.mode = .seeking) (q : Nat) :
    (feedAll (List.replicate (32 * q) Config.sync) s).mode = .seeking ∧
    (feedAll (List.replicate (32 * q) Config.sync) s).outputs = s.outputs ++ List.replicate (32 * q) none := by
  induction q with
  | zero => simpa using hs
  | succ q ih =>
    obtain ⟨hmode, hout⟩ := ih
    obtain ⟨hmode', hout'⟩ := feedAll_sync_frame hmode
    rw [Nat.mul_succ, ← List.replicate_append_replicate, feedAll_append]
    exact ⟨hmode', by rw [hout', hout, List.append_assoc, List.replicate_append_replicate]⟩

/-- Settles O41: whole dropped collections, then a collection in progress of `n % 32` bytes, if any. -/
theorem syncBytesOnlyGiveNoMessage : Obligations.SyncBytesOnlyGiveNoMessage := by
  refine ⟨cksum_replicate_sync, fun s n rest hs => ?_⟩
  obtain ⟨hmode, hout⟩ := feedAll_sync_frames hs (n / 32)
  have hrun := runSteps_feedItems (List.replicate n Config.sync) rest s
  have hsplit : feedAll (List.replicate n Config.sync) s =
      feedAll (List.replicate (n % 32) Config.sync) (feedAll (List.replicate (32 * (n / 32)) Config.sync) s) := by
    rw [← feedAll_append, List.replicate_append_replicate, Nat.div_add_mod]
  rw [List.length_replicate, hsplit] at hrun
  refine ⟨_, hrun, ?_⟩
  generalize feedAll (List.replicate (32 * (n / 32)) Config.sync) s = u at hmode hout
  have hnones : s.outputs ++ List.replicate n none = u.outputs ++ List.replicate (n % 32) none := by
    rw [hout, List.append_assoc, List.replicate_append_replicate, Nat.div_add_mod]
  rw [hnones]
  cases hr : n % 32 with
  | zero => exact ⟨by simp, fun _ => hmode, fun h => absurd rfl h⟩
  | succ r =>
    have hc := collected_of_seeking hmode (List.replicate r Config.sync) (by simp; omega)
    have hlen : (Config.sync :: List.replicate r Config.sync).length = r + 1 := by simp
    exact ⟨hc.outputs.trans (by rw [hlen]), fun h => absurd h (Nat.succ_ne_zero r), fun _ => ⟨hc.mode, hc.index.trans hlen⟩⟩

end Sys2Proof.Machine

namespace Sys2Proof.Machine

/-! ### A fed byte in Collecting (41_collecting.md R94, R95) -/

/-- A step on a presented byte is the feed of that byte. -/
theorem step_feedInput (b : Byte) (rest : List Item) (s : State) :
    step (s.withPending (.present (feedInput b) :: rest)) = .next ((feed b s).withPending rest) := by
  rw [step_of_present (State.withPending_pending _ s), ← feed_withPending]
  rfl

/-- The completing byte, whatever it is, ends the collection. -/
theorem feed_last_seeking {s : State} (hm : s.mode = .collecting) (hi : s.index = 31) (b : Byte) :
    (feed b s).mode = .seeking ∧ (feed b s).index = 0 := by
  rw [feed_collecting_last hm hi]
  split
  · exact ⟨rfl, rfl⟩
  · exact ⟨rfl, rfl⟩

theorem index_val_le_of_ne_last {i : Fin 32} (h : i ≠ 31) : i.val ≤ 30 := by
  have hne : i.val ≠ 31 := fun e => h (Fin.ext e)
  omega

/-- Settles O38: both bytes go to the cell at `index`, and mode, index and output are the row's, which below index 31
is COLLECT_STORE and at index 31 returns to Seeking. -/
theorem noSyncDetectionInCollecting : Obligations.NoSyncDetectionInCollecting := by
  unfold Obligations.NoSyncDetectionInCollecting
  intro s b c rest hm
  refine ⟨_, _, step_feedInput b rest s, step_feedInput c rest s, ?_⟩
  simp only [State.withPending_mode, State.withPending_index, State.withPending_outputs, State.withPending_buf]
  have hcells : ∀ k : Addr, k ≠ s.index → (feed b s).buf.read k = (feed c s).buf.read k := fun k hk => by
    rw [feed_buf_of_collecting hm, feed_buf_of_collecting hm, Memory.read_write_of_ne _ _ hk,
      Memory.read_write_of_ne _ _ hk]
  by_cases hi : s.index = 31
  · obtain ⟨hbm, hbi⟩ := feed_last_seeking hm hi b
    obtain ⟨hcm, hci⟩ := feed_last_seeking hm hi c
    have hlast : (feed b s).buf.read 31 = b := by rw [feed_buf_of_collecting hm, hi, Memory.read_write_self]
    exact ⟨hbm.trans hcm.symm, hbi.trans hci.symm, fun h => absurd hi h, hcells, fun _ => ⟨hbm, hbi, hlast⟩⟩
  · have hstore := feed_collecting_store hm (index_val_le_of_ne_last hi)
    refine ⟨?_, ?_, fun _ => ?_, hcells, fun h => absurd h hi⟩ <;> simp [hstore]

/-! ### Valid frames (43_extraction.md R114) -/

theorem frameOf_valid (l : Byte) (c : Message) : (frameOf l c).Valid := by
  refine ⟨rfl, ?_⟩
  have hlen := length_flatMap_le c.toList
  rw [frameBytes_eq, List.take_left' (by simp [frameOf, hlen, Config.ckLen])]
  simp only [frameOf]

/-- From Seeking the 32 bytes of a valid frame give its message on the last byte. -/
theorem feedAll_validFrame {f : Frame} (hf : f.Valid) {s : State} (hs : s.mode = .seeking) :
    (feedAll f.bytes s).mode = .seeking ∧
    (feedAll f.bytes s).outputs = s.outputs ++ collectionOutputs (some f.ch) := by
  obtain ⟨hsync, hck⟩ := hf
  have hlen : (f.len :: f.ch.toList.flatMap leBytes).length = 29 := by
    rw [List.length_cons, length_flatMap_le, Vector.length_toList]
  have hbytes := frameBytes_eq f
  rw [hsync] at hbytes
  have hsum : cksum (Config.sync :: (f.len :: f.ch.toList.flatMap leBytes)) =
      wordOf (loByte f.cksum) (hiByte f.cksum) := by
    rw [wordOf_loByte_hiByte, hck, hbytes, List.take_left' (by rw [List.length_cons, hlen])]
  obtain ⟨hm, -, -, -, hbuf, hemit, -⟩ := feedAll_collection hs _ hlen (loByte f.cksum) (hiByte f.cksum)
  rw [← hbytes] at hm hbuf hemit
  exact ⟨hm, by rw [hemit hsum, extract_of_bytes hbuf]⟩

/-- Valid frames back to back. -/
theorem feedAll_validFrames {fs : List Frame} (hfs : ∀ f ∈ fs, f.Valid) {s : State} (hs : s.mode = .seeking) :
    (feedAll (fs.flatMap Frame.bytes) s).mode = .seeking ∧
    (feedAll (fs.flatMap Frame.bytes) s).outputs = s.outputs ++ fs.flatMap fun f => collectionOutputs (some f.ch) := by
  induction fs generalizing s with
  | nil => exact ⟨hs, by simp⟩
  | cons f fs ih =>
    obtain ⟨hf, hfs⟩ := List.forall_mem_cons.1 hfs
    obtain ⟨hm, hout⟩ := feedAll_validFrame hf hs
    obtain ⟨hm', hout'⟩ := ih hfs hm
    rw [List.flatMap_cons, feedAll_append]
    exact ⟨hm', by rw [hout', hout, List.append_assoc, List.flatMap_cons]⟩

theorem length_flatMap_bytes (fs : List Frame) : (fs.flatMap Frame.bytes).length = 32 * fs.length := by
  induction fs with
  | nil => rfl
  | cons f fs ih => rw [List.flatMap_cons, List.length_append, ih, Frame.length_bytes, List.length_cons]; omega

/-! ### Recovery after a drop (41_collecting.md R97) -/

/-- Settles O43: the drop leaves Seeking, the skipped bytes stay there, and the frame is then met from its first byte. -/
theorem recoveryAfterADrop : Obligations.RecoveryAfterADrop := by
  unfold Obligations.RecoveryAfterADrop
  intro s b skips l c rest hm hi hacc hskips
  have hdrop : feed b s = opCollectDrop b s := by
    rw [feed_collecting_last hm hi, if_neg (by simpa [ckOk, rxWord] using hacc)]
  have hskip := feedAll_skip (opCollectDrop_mode b s) hskips
  obtain ⟨hmode, hout⟩ := feedAll_validFrame (frameOf_valid l c) (s := feedAll skips (opCollectDrop b s))
    (by rw [hskip]; exact opCollectDrop_mode b s)
  have hrun := runSteps_feedItems (b :: skips ++ (frameOf l c).bytes) rest s
  have hlen : (b :: skips ++ (frameOf l c).bytes).length = 1 + skips.length + 32 := by simp; omega
  rw [hlen, feedAll_append, feedAll_cons, hdrop] at hrun
  refine ⟨_, hrun, ?_, hmode⟩
  rw [State.withPending_outputs, hout, hskip, opCollectDrop_outputs, ← List.replicate_append_replicate,
    ← List.replicate_append_replicate]
  simp [collectionOutputs, frameOf]

/-! ### A collection from Seeking (41_collecting.md R96) -/

/-- The first `k` of the presented bytes are fed by the first `k` steps. -/
theorem runSteps_take_feedItems {k : Nat} {bs : List Byte} (hk : k ≤ bs.length) (rest : List Item) (s : State) :
    runSteps k (s.withPending (feedItems bs ++ rest)) =
      .next ((feedAll (bs.take k) s).withPending (feedItems (bs.drop k) ++ rest)) := by
  have h := runSteps_feedItems (bs.take k) (feedItems (bs.drop k) ++ rest) s
  rwa [List.length_take_of_le hk, ← List.append_assoc, feedItems, feedItems, ← List.map_append, List.take_append_drop]
    at h

/-- The Collecting rows of 30_encoding.md R67, with `ck_ok` as 42_checksum.md R103 has it. -/
theorem decodeSel_collecting {s : State} (hm : s.mode = .collecting) {k : Nat} (hk : s.index.val = k) (b : Byte) :
    decodeSel (selOf s (feedInput b)) =
      if k ≤ 30 then .collectStore s.index b
      else if s.acc = wordOf (s.buf.read 30) b then .collectEmit b else .collectDrop b := by
  simp [decodeSel, selOf, feedInput, hm, ckOk, rxWord, hk]

/-- After `k` bytes of a collection, 1 to 31, it is in progress with `index` `k`. -/
theorem feedAll_take_collection {s : State} (hs : s.mode = .seeking) (bs : List Byte) {k : Nat} (h1 : 1 ≤ k)
    (h31 : k ≤ 31) (hk : k ≤ bs.length + 1) :
    (feedAll ((Config.sync :: bs).take k) s).mode = .collecting ∧
    (feedAll ((Config.sync :: bs).take k) s).index.val = k := by
  obtain ⟨j, rfl⟩ := Nat.exists_eq_add_of_le' h1
  have hlen : (bs.take j).length = j := List.length_take_of_le (by omega)
  have hc := collected_of_seeking hs (bs.take j) (by omega)
  rw [List.take_succ_cons]
  exact ⟨hc.mode, hc.index.trans (by rw [List.length_cons, hlen])⟩

/-- Any 31 bytes after the sync marker end a collection and give at most one message, on the last of them. -/
theorem feedAll_whole_collection {s : State} (hs : s.mode = .seeking) {bs : List Byte} (hl : bs.length = 31) :
    (feedAll (Config.sync :: bs) s).mode = .seeking ∧ (feedAll (Config.sync :: bs) s).index = 0 ∧
    ∃ o, (feedAll (Config.sync :: bs) s).outputs = s.outputs ++ collectionOutputs o := by
  obtain ⟨cs, b, rfl⟩ := (List.eq_nil_or_concat' bs).resolve_left (by rintro rfl; simp at hl)
  have hcs : cs.length = 30 := by simpa using hl
  have hc := collected_of_seeking hs cs hcs.le
  have hindex : (feedAll (Config.sync :: cs) s).index = 31 := Fin.ext (by rw [hc.index, List.length_cons, hcs]; rfl)
  obtain ⟨hmode, hi⟩ := feed_last_seeking hc.mode hindex b
  obtain ⟨o, ho⟩ := feed_outputs b (feedAll (Config.sync :: cs) s)
  rw [← List.cons_append, feedAll_append]
  refine ⟨hmode, hi, o, ?_⟩
  rw [feedAll_cons, feedAll_nil, ho, hc.outputs, List.length_cons, hcs, List.append_assoc]
  rfl

/-! ### IDLE and RESET among the bytes (41_collecting.md R96) -/

/-- What a step does and how many bytes it feeds (60_exceptions.md R123). -/
theorem stepInput_fed_cases (inp : Input) :
    (inp.rst = true ∧ fedCount [inp] = 0 ∧ ∀ s, stepInput inp s = opReset s) ∨
    (inp.rst = false ∧ inp.inValid = false ∧ fedCount [inp] = 0 ∧ ∀ s, stepInput inp s = opIdle s) ∨
    (inp.rst = false ∧ inp.inValid = true ∧ fedCount [inp] = 1 ∧ ∀ s, stepInput inp s = feed inp.inByte s) := by
  cases hr : inp.rst with
  | true => exact .inl ⟨rfl, by simp [fedCount, hr], fun s => by simp [stepInput, hr]⟩
  | false =>
    cases hv : inp.inValid with
    | false => exact .inr (.inl ⟨rfl, rfl, by simp [fedCount, hv], fun s => by simp [stepInput, hr, hv]⟩)
    | true => exact .inr (.inr ⟨rfl, rfl, by simp [fedCount, hr, hv], fun s => by simp [stepInput, hr, hv]⟩)

theorem fedCount_cons_eq_add (inp : Input) (inps : List Input) :
    fedCount (inp :: inps) = fedCount [inp] + fedCount inps := fedCount_append [inp] inps

/-- Before the completing byte a step without RESET stays in the collection. -/
theorem stepInput_of_collecting {s : State} (hm : s.mode = .collecting) {inp : Input} (hr : inp.rst = false)
    (hn : s.index.val + fedCount [inp] ≤ 31) :
    (stepInput inp s).mode = .collecting ∧ (stepInput inp s).index.val = s.index.val + fedCount [inp] ∧
    (stepInput inp s).outputs = s.outputs ++ [none] := by
  rcases stepInput_fed_cases inp with ⟨hr', -⟩ | ⟨-, -, hcount, e⟩ | ⟨-, -, hcount, e⟩
  · simp [hr] at hr'
  · rw [e s, hcount]; exact ⟨hm, rfl, rfl⟩
  · have hi : s.index.val ≤ 30 := by omega
    rw [e s, hcount, feed_collecting_store hm hi]
    exact ⟨opCollectStore_mode .., by rw [opCollectStore_index, val_index_succ hi], opCollectStore_outputs ..⟩

theorem stepInputs_of_collecting {s : State} (hm : s.mode = .collecting) {inps : List Input}
    (hr : ∀ i ∈ inps, i.rst = false) (hn : s.index.val + fedCount inps ≤ 31) :
    (stepInputs inps s).mode = .collecting ∧ (stepInputs inps s).index.val = s.index.val + fedCount inps ∧
    (stepInputs inps s).outputs = s.outputs ++ List.replicate inps.length none := by
  induction inps generalizing s with
  | nil => exact ⟨hm, rfl, by simp [stepInputs]⟩
  | cons inp inps ih =>
    obtain ⟨hinp, hinps⟩ := List.forall_mem_cons.1 hr
    rw [fedCount_cons_eq_add] at hn ⊢
    obtain ⟨hm', hi', hout'⟩ := stepInput_of_collecting hm hinp (by omega)
    obtain ⟨hmode, hi, hout⟩ := ih hm' hinps (by omega)
    refine ⟨hmode, hi.trans (by omega), hout.trans ?_⟩
    rw [hout', List.append_assoc, List.length_cons, List.replicate_succ]
    rfl

/-- RESET, or a byte at index 31, and nothing else leaves Collecting. -/
theorem stepInput_leaves_collecting {s : State} (hm : s.mode = .collecting) (inp : Input) :
    ((stepInput inp s).mode = .seeking ↔ inp.rst = true ∨ inp.inValid = true ∧ s.index = 31) ∧
    ((stepInput inp s).mode = .seeking → (stepInput inp s).index = 0) ∧
    (inp.rst = true → (stepInput inp s).outputs = s.outputs ++ [none]) := by
  rcases stepInput_fed_cases inp with ⟨hr, -, e⟩ | ⟨hr, hv, -, e⟩ | ⟨hr, hv, -, e⟩ <;> rw [e s]
  · simp [hr]
  · simp [hm, hr, hv]
  · by_cases hi : s.index = 31
    · obtain ⟨hmode, hindex⟩ := feed_last_seeking hm hi inp.inByte
      simp [hmode, hindex, hr, hv, hi]
    · simp [feed_collecting_store hm (index_val_le_of_ne_last hi), hr, hi]

/-! ### The distance of messages in fed bytes (41_collecting.md R96) -/

/-- The bytes of the collection in progress that have been fed; none in Seeking. -/
def State.progress (s : State) : Nat := if s.mode = .collecting then s.index.val else 0

theorem State.progress_of_seeking {s : State} (h : s.mode = .seeking) : s.progress = 0 := by simp [State.progress, h]

theorem State.progress_of_collecting {s : State} (h : s.mode = .collecting) : s.progress = s.index.val := by
  simp [State.progress, h]

/-- A byte adds at most itself to the collection, and gives a message only as the 32nd byte of one, which it ends. -/
theorem feed_progress (b : Byte) (s : State) :
    ∃ o, (feed b s).outputs = s.outputs ++ [o] ∧ (feed b s).progress ≤ s.progress + 1 ∧
      ∀ m, o = some m → (feed b s).progress = 0 ∧ s.progress = 31 := by
  rcases feed_cases b s with ⟨-, -, e⟩ | ⟨-, -, e⟩ | ⟨hm, hi, e⟩ | ⟨hm, hi, -, e⟩ | ⟨-, -, -, e⟩ <;> rw [e]
  · refine ⟨none, rfl, ?_, nofun⟩
    rw [State.progress_of_collecting rfl]
    exact Nat.le_add_left ..
  · exact ⟨none, rfl, Nat.le_succ s.progress, nofun⟩
  · refine ⟨none, opCollectStore_outputs .., ?_, nofun⟩
    rw [State.progress_of_collecting (opCollectStore_mode ..), State.progress_of_collecting hm, opCollectStore_index,
      val_index_succ hi]
  · have hzero : (opCollectEmit b s).progress = 0 := State.progress_of_seeking rfl
    exact ⟨_, rfl, by omega, fun _ _ => ⟨hzero, (State.progress_of_collecting hm).trans hi⟩⟩
  · exact ⟨none, rfl, by rw [State.progress_of_seeking rfl]; exact Nat.zero_le _, nofun⟩

/-- The same of a step, in fed bytes: RESET and IDLE feed none. -/
theorem stepInput_progress (inp : Input) (s : State) :
    ∃ o, (stepInput inp s).outputs = s.outputs ++ [o] ∧
      (stepInput inp s).progress ≤ s.progress + fedCount [inp] ∧
      ∀ m, o = some m → (stepInput inp s).progress = 0 ∧ 32 ≤ s.progress + fedCount [inp] := by
  rcases stepInput_fed_cases inp with ⟨-, -, e⟩ | ⟨-, -, -, e⟩ | ⟨-, -, hcount, e⟩ <;> rw [e s]
  · exact ⟨none, rfl, by rw [State.progress_of_seeking rfl]; exact Nat.zero_le _, nofun⟩
  · exact ⟨none, rfl, Nat.le_add_right .., nofun⟩
  · obtain ⟨o, hout, hle, hmsg⟩ := feed_progress inp.inByte s
    rw [hcount]
    exact ⟨o, hout, hle, fun m hm => (hmsg m hm).imp id fun h => by omega⟩

/-- Up to each message of `out`, the outputs of the steps on `inps`, at least 32 bytes are fed, counting `n` fed
before. -/
def FedBeforeMessages (n : Nat) (inps : List Input) (out : List (Option Message)) : Prop :=
  ∀ (j : Nat) (m : Message), out[j]? = some (some m) → 32 ≤ n + fedCount (inps.take (j + 1))

/-- From one message of `out` to a later one at least 32 bytes are fed. -/
def FedBetweenMessages (inps : List Input) (out : List (Option Message)) : Prop :=
  ∀ (i j : Nat) (m m' : Message), i < j → out[i]? = some (some m) → out[j]? = some (some m') →
    32 ≤ fedCount ((inps.take (j + 1)).drop (i + 1))

theorem FedBeforeMessages.cons {n n' : Nat} {inp : Input} {inps : List Input} {o : Option Message}
    {out : List (Option Message)} (h : FedBeforeMessages n' inps out) (hle : n' ≤ n + fedCount [inp])
    (ho : ∀ m, o = some m → 32 ≤ n + fedCount [inp]) : FedBeforeMessages n (inp :: inps) (o :: out)
  | 0, m, hj => by simpa using ho m (by simpa using hj)
  | j + 1, m, hj => by
    have := h j m hj
    rw [List.take_succ_cons, fedCount_cons_eq_add]
    omega

theorem FedBetweenMessages.cons {inp : Input} {inps : List Input} {o : Option Message} {out : List (Option Message)}
    (h : FedBetweenMessages inps out) (ho : ∀ m, o = some m → FedBeforeMessages 0 inps out) :
    FedBetweenMessages (inp :: inps) (o :: out)
  | 0, j + 1, m, m', _, hi, hj => by simpa using ho m (by simpa using hi) j m' hj
  | i + 1, j + 1, m, m', hij, hi, hj => h i j m m' (Nat.lt_of_succ_lt_succ hij) hi hj

/-- Over any inputs, from any state, by induction on them: after a message nothing of a collection is left. -/
theorem stepInputs_fed (inps : List Input) (s : State) :
    ∃ out, (stepInputs inps s).outputs = s.outputs ++ out ∧ out.length = inps.length ∧
      FedBeforeMessages s.progress inps out ∧ FedBetweenMessages inps out := by
  induction inps generalizing s with
  | nil => exact ⟨[], by simp [stepInputs], rfl, nofun, nofun⟩
  | cons inp inps ih =>
    obtain ⟨o, ho, hle, hmsg⟩ := stepInput_progress inp s
    obtain ⟨out, hout, hlen, hbefore, hbetween⟩ := ih (stepInput inp s)
    refine ⟨o :: out, hout.trans (by rw [ho, List.append_assoc]; rfl), by simp [hlen], ?_, ?_⟩
    · exact hbefore.cons hle fun m hm => (hmsg m hm).2
    · exact hbetween.cons fun m hm => (hmsg m hm).1 ▸ hbefore

/-! ### Cadence (41_collecting.md R96) -/

/-- Settles O42, part by part: the bytes of one collection and how far into it each leaves the decoder; inputs in a
collection; valid frames, by induction on their list; and the distance of messages, by induction on the inputs. -/
theorem collectionCadence : Obligations.CollectionCadence := by
  unfold Obligations.CollectionCadence
  refine ⟨fun s bs rest hs hl => ?_, fun s inps inp rest hm hr hn => ?_, fun s fs rest hs hfs => ?_,
    fun s inps rest _ => ?_⟩
  · have hrun := runSteps_feedItems (Config.sync :: bs) rest s
    rw [List.length_cons, hl] at hrun
    obtain ⟨hmode, hindex, o, hout⟩ := feedAll_whole_collection hs hl
    refine ⟨by simp [decodeSel, selOf, feedInput, hs], _, o, hrun, hmode, hindex, hout, fun k h1 h31 => ?_⟩
    have hk : k ≤ (Config.sync :: bs).length := by rw [List.length_cons]; omega
    obtain ⟨hcol, hik⟩ := feedAll_take_collection hs bs h1 h31 hk
    exact ⟨_, runSteps_take_feedItems hk rest s, hcol, hik, decodeSel_collecting hcol hik⟩
  · obtain ⟨hmode, hindex, hout⟩ := stepInputs_of_collecting hm hr hn
    obtain ⟨hleave, hzero, hreset⟩ := stepInput_leaves_collecting (s := (stepInputs inps s).withPending rest) hmode inp
    exact ⟨_, _, runSteps_inputItems inps (.present inp :: rest) s, hmode, hindex, hout, step_of_present rfl, hleave,
      hzero, hreset⟩
  · have hrun := runSteps_feedItems (fs.flatMap Frame.bytes) rest s
    rw [length_flatMap_bytes] at hrun
    obtain ⟨hmode, hout⟩ := feedAll_validFrames hfs hs
    exact ⟨_, hrun, hmode, hout⟩
  · obtain ⟨out, hout, hlen, -, hbetween⟩ := stepInputs_fed inps s
    exact ⟨_, out, runSteps_inputItems inps rest s, hout, hlen, hbetween⟩

end Sys2Proof.Machine

namespace Sys2Proof.Machine

/-! ### The comparison (42_checksum.md R103) -/

theorem ckOk_iff (s : State) (b : Byte) : ckOk s b = true ↔ s.acc = wordOf (s.buf.read 30) b := by
  simp [ckOk, rxWord]

/-- Settles O18: words are equal when both their bytes are, and at index 31 the selection asks `ck_ok`. -/
theorem checksumComparison : Obligations.ChecksumComparison := by
  unfold Obligations.ChecksumComparison
  intro s b
  refine ⟨ckOk_iff s b, (ckOk_iff s b).trans (eq_wordOf_iff ..), fun hm hi => ?_⟩
  rw [decodeSel_collecting hm (congrArg Fin.val hi) b, if_neg (by decide)]
  simp only [ckOk_iff]

/-! ### The register is the function (42_checksum.md R102) -/

theorem accAfter_last (m : Memory) : accAfter m 31 = cksum m.checksummed := (cksum_eq _).symm

theorem State.Inv.acc_last {s : State} (hs : s.Inv) (hm : s.mode = .collecting) (hi : s.index = 31) :
    s.acc = cksum s.buf.checksummed := by
  obtain ⟨-, -, hcol⟩ := hs
  obtain ⟨-, -, hacc⟩ := hcol hm
  rw [hacc, hi]
  exact accAfter_last s.buf

/-- Settles O20: the invariant's value of `acc` at index 31 is the loop over cells 0 to 29. -/
theorem accumulatorIsTheChecksumFunction : Obligations.AccumulatorIsTheChecksumFunction := by
  unfold Obligations.AccumulatorIsTheChecksumFunction
  intro s hs hm hi
  have hacc := hs.acc_last hm hi
  exact ⟨hacc, fun b => by rw [← hacc]; rfl⟩

/-! ### No wrap (42_checksum.md R104) -/

theorem byteSum_le (bs : List Byte) : byteSum bs ≤ 255 * bs.length := by
  have hbytes : ∀ n ∈ bs.map BitVec.toNat, n ≤ 255 := fun n hn => by
    obtain ⟨b, -, rfl⟩ := List.mem_map.1 hn
    exact Nat.le_of_lt_succ b.isLt
  have hsum := List.sum_le_card_nsmul _ 255 hbytes
  rwa [List.length_map, smul_eq_mul, mul_comm] at hsum

/-- A sum of at most `0xFFFF` is subtracted without a wrap. -/
theorem toNat_ckInit_sub {n : Nat} (h : n ≤ 0xFFFF) : (Config.ckInit - BitVec.ofNat 16 n).toNat = 0xFFFF - n := by
  unfold Config.ckInit; bv_omega

/-- Over up to 30 bytes the checksum and the sum make `0xFFFF` as plain integers. -/
theorem toNat_cksum_add_byteSum {bs : List Byte} (h : bs.length ≤ 30) : (cksum bs).toNat + byteSum bs = 0xFFFF := by
  have hle := byteSum_le bs
  rw [cksum_eq, toNat_ckInit_sub (by omega)]
  omega

/-- Settles O21: thirty bytes sum to at most `0x1DE2`, and in a collection the first of them is `0x20`. -/
theorem checksumNeverWraps : Obligations.ChecksumNeverWraps := by
  unfold Obligations.ChecksumNeverWraps
  refine ⟨fun bs hl => ?_, fun s hs hm hi => ?_⟩
  · have hsum := toNat_cksum_add_byteSum hl
    have hle := byteSum_le bs
    omega
  · obtain ⟨-, -, hcol⟩ := hs
    obtain ⟨h1, h0, hacc⟩ := hcol hm
    obtain ⟨bs, hl, hsync⟩ := accAfter_of_sync h0 h1
    have hlen : bs.length = 29 := by rw [hl, hi]; rfl
    have hle := byteSum_le bs
    have hnat : s.acc.toNat = 0xFFFF - (0x20 + byteSum bs) := by
      rw [hacc, hsync]
      exact toNat_ckInit_sub (by omega)
    rw [toNat_hiByte]
    omega

/-! ### The additive form (42_checksum.md R105) -/

/-- Adding byte by byte with wraparound is adding the sum. -/
theorem foldl_add_eq (bs : List Byte) (a : Word) :
    bs.foldl (fun a b => a + b.zeroExtend 16) a = a + BitVec.ofNat 16 (byteSum bs) := by
  induction bs generalizing a with
  | nil => simp [byteSum]
  | cons b bs ih =>
    have hsum : byteSum (b :: bs) = b.toNat + byteSum bs := by simp [byteSum]
    rw [List.foldl_cons, ih, hsum]
    bv_omega

theorem addsum_eq (bs : List Byte) : addsum bs = BitVec.ofNat 16 (byteSum bs) := by
  rw [addsum, foldl_add_eq, BitVec.ofNat_eq_ofNat, BitVec.zero_add]

theorem cksum_eq_not_addsum (bs : List Byte) : cksum bs = ~~~ (addsum bs) := by
  rw [cksum_eq, addsum_eq]
  exact BitVec.allOnes_sub_eq_not _

/-- Settles O22: the loop is one subtraction from `0xFFFF`, which is complementing, and so turns into an addition. -/
theorem additiveChecksumIsEquivalent : Obligations.AdditiveChecksumIsEquivalent := by
  unfold Obligations.AdditiveChecksumIsEquivalent
  intro bs _
  have hnot := cksum_eq_not_addsum bs
  refine ⟨cksum_eq bs, addsum_eq bs ▸ hnot, hnot, fun rx => ?_⟩
  rw [hnot]
  bv_omega

end Sys2Proof.Machine

namespace Sys2Proof.Machine

/-! ### Only the sum is checked (42_checksum.md R107) -/

/-- A buffer cell from the list of all 32. -/
theorem Memory.read_of_toBytes {m : Memory} {k : Addr} {x : Byte} (h : m.toBytes[k.val]? = some x) : m.read k = x := by
  obtain ⟨_, hk⟩ := List.getElem?_eq_some_iff.1 h
  rwa [Memory.getElem_toBytes] at hk

/-- A byte of a collection between its sync marker and its checksum. -/
theorem getElem?_collection {bs cs : List Byte} {k : Nat} {x : Byte} (h : bs[k]? = some x) :
    (Config.sync :: bs ++ cs)[k + 1]? = some x := by
  obtain ⟨hk, -⟩ := List.getElem?_eq_some_iff.1 h
  rw [List.cons_append, List.getElem?_cons_succ, List.getElem?_append_left hk, h]

/-- Settles O24: the loop is one subtraction of the sum, and a collection whose last two bytes are its result is
emitted with the channels of its cells. -/
theorem onlyTheSumIsChecked : Obligations.OnlyTheSumIsChecked := by
  unfold Obligations.OnlyTheSumIsChecked
  refine ⟨fun bs cs h => by rw [cksum_eq, cksum_eq, h], fun s bs lo hi rest hs hl hsum => ?_⟩
  have hrun := runSteps_feedItems (Config.sync :: bs ++ [lo, hi]) rest s
  have hlen : (Config.sync :: bs ++ [lo, hi]).length = 32 := by simp [hl]
  obtain ⟨-, -, -, -, hbuf, hemit, -⟩ := feedAll_collection hs bs hl lo hi
  rw [hlen] at hrun
  refine ⟨_, _, hrun, hemit ((cksum_eq _).trans hsum.symm), fun c x y hx hy => ?_⟩
  rw [get_extract _ c (lo := ⟨2 * c.val + 1 + 1, by omega⟩) (hi := ⟨2 * c.val + 2 + 1, by omega⟩)
      (by simp only; omega) (by simp only; omega),
    Memory.read_of_toBytes (hbuf ▸ getElem?_collection hx), Memory.read_of_toBytes (hbuf ▸ getElem?_collection hy)]

/-! ### A corrupted byte (42_checksum.md R106) -/

theorem byteSum_modify {bs : List Byte} {k : Nat} (hk : k < bs.length) (f : Byte → Byte) :
    byteSum (bs.modify k f) + bs[k].toNat = byteSum bs + (f bs[k]).toNat := by
  have hcons (b : Byte) (l : List Byte) : byteSum (b :: l) = b.toNat + byteSum l := by simp [byteSum]
  have hsplit : byteSum bs = byteSum (bs.take k) + (bs[k].toNat + byteSum (bs.drop (k + 1))) := by
    rw [← hcons, ← byteSum_append, List.getElem_cons_drop, List.take_append_drop]
  rw [List.modify_eq_take_cons_drop hk, byteSum_append, hcons, hsplit]
  omega

/-- Changing one of up to 30 bytes changes their checksum. -/
theorem cksum_modify_ne {bs : List Byte} (hl : bs.length ≤ 30) {k : Nat} (hk : k < bs.length) {f : Byte → Byte}
    (hf : f bs[k] ≠ bs[k]) : cksum (bs.modify k f) ≠ cksum bs := by
  intro he
  have hsum := byteSum_modify hk f
  have hold := toNat_cksum_add_byteSum hl
  have hnew := toNat_cksum_add_byteSum (bs := bs.modify k f) (by rwa [List.length_modify])
  rw [he] at hnew
  exact hf (BitVec.eq_of_toNat_eq (by omega))

/-- The last two of 32 bytes are the checksum of the first 30, low byte first (42_checksum.md R103). -/
def CarriesChecksum (bs : List Byte) : Prop := cksum (bs.take 30) = wordOf (bs.getD 30 0) (bs.getD 31 0)

theorem carriesChecksum_iff {bs : List Byte} (hl : bs.length = 32) :
    CarriesChecksum bs ↔ cksum (bs.take 30) = wordOf bs[30] bs[31] := by
  rw [CarriesChecksum, List.getD_eq_getElem, List.getD_eq_getElem]

/-- A change of one byte alone, whichever of the 32, breaks the comparison: below offset 30 the computed side
changes, from there on the received side. -/
theorem not_carriesChecksum_modify {bs : List Byte} (hl : bs.length = 32) (h : CarriesChecksum bs) {k : Nat}
    (hk : k < bs.length) {f : Byte → Byte} (hf : f bs[k] ≠ bs[k]) : ¬ CarriesChecksum (bs.modify k f) := by
  rw [carriesChecksum_iff hl] at h
  rw [carriesChecksum_iff (by rwa [List.length_modify]), List.take_modify, List.getElem_modify, List.getElem_modify]
  by_cases hk30 : k < 30
  · rw [if_neg (by omega), if_neg (by omega), ← h]
    exact cksum_modify_ne (by simp) (by simp; omega) (by simpa using hf)
  · rw [List.modify_eq_self (by simp; omega), h, eq_wordOf_iff, loByte_wordOf, hiByte_wordOf]
    rintro ⟨hlo, hhi⟩
    obtain rfl | rfl : k = 30 ∨ k = 31 := by omega
    · exact hf (by simpa using hlo)
    · exact hf (by simpa using hhi)

theorem carriesChecksum_of_valid {f : Frame} (h : f.Valid) : CarriesChecksum f.bytes := by
  obtain ⟨-, hck⟩ := h
  obtain ⟨hlo, hhi⟩ := f.bytes_cksum
  rw [CarriesChecksum, List.getD_eq_getElem?_getD, List.getD_eq_getElem?_getD, hlo, hhi, ← hck]
  exact (wordOf_loByte_hiByte f.cksum).symm

/-- From Seeking, 32 bytes from a sync marker on that do not carry their checksum are dropped (41_collecting.md R93). -/
theorem feedAll_drop {s : State} (hs : s.mode = .seeking) {bs : List Byte} (hl : bs.length = 31)
    (hck : ¬ CarriesChecksum (Config.sync :: bs)) :
    (feedAll (Config.sync :: bs) s).mode = .seeking ∧ (feedAll (Config.sync :: bs) s).index = 0 ∧
    (feedAll (Config.sync :: bs) s).outputs = s.outputs ++ List.replicate 32 none := by
  have hlen : (bs.take 29).length = 29 := by simp [hl]
  have hdrop : bs.drop 29 = [bs[29], bs[30]] := by
    rw [← List.getElem_cons_drop, ← List.getElem_cons_drop, List.drop_of_length_le hl.le]
  have hbytes : Config.sync :: bs.take 29 ++ [bs[29], bs[30]] = Config.sync :: bs := by
    rw [← hdrop, List.cons_append, List.take_append_drop]
  obtain ⟨hm, hi, -, -, -, -, hout⟩ := feedAll_collection hs (bs.take 29) hlen bs[29] bs[30]
  rw [hbytes] at hm hi hout
  refine ⟨hm, hi, hout fun h => hck ?_⟩
  rwa [carriesChecksum_iff (by simp [hl])]

/-- From Seeking, fewer than 32 bytes give no message (41_collecting.md R96). -/
theorem feedAll_short {s : State} (hs : s.mode = .seeking) {bs : List Byte} (hl : bs.length ≤ 31) :
    (feedAll bs s).outputs = s.outputs ++ List.replicate bs.length none := by
  obtain ⟨out, hout, hlen, hbefore, -⟩ := stepInputs_fed (bs.map feedInput) s
  rw [stepInputs_feed] at hout
  rw [hout, List.append_cancel_left_eq, List.eq_replicate_iff]
  refine ⟨hlen.trans (List.length_map ..), fun o ho => ?_⟩
  obtain ⟨j, hj⟩ := List.getElem?_of_mem ho
  cases o with
  | none => rfl
  | some m =>
    have hfed := hbefore j m hj
    rw [State.progress_of_seeking hs, ← List.map_take, fedCount_feedInput, List.length_take] at hfed
    omega

/-- From Seeking, a byte that is no sync marker and 31 more bytes give no message. -/
theorem feedAll_no_sync {s : State} (hs : s.mode = .seeking) {b : Byte} (hb : b ≠ Config.sync) {bs : List Byte}
    (hl : bs.length = 31) : (feedAll (b :: bs) s).outputs = s.outputs ++ List.replicate 32 none := by
  have hshort := feedAll_short (s := opSeekSkip b s) hs hl.le
  rw [feedAll_cons, feed_seeking_skip hs hb, hshort, hl, opSeekSkip_outputs, List.append_assoc]
  rfl

theorem xor_bit_ne (b : Byte) (bit : Fin 8) : b ^^^ 1#8 <<< bit.val ≠ b := by
  have hbit : ∀ bit : Fin 8, 1#8 <<< bit.val ≠ 0#8 := by decide
  intro h
  exact hbit bit ((BitVec.xor_right_inj b).1 (h.trans BitVec.xor_zero.symm))

/-- Settles O23. A flip in byte 0 leaves no sync marker there, and the other 31 bytes are too few for a message; a
flip in a later byte leaves a collection whose bytes no longer carry their checksum. -/
theorem singleBitErrorsAreDetected : Obligations.SingleBitErrorsAreDetected := by
  unfold Obligations.SingleBitErrorsAreDetected
  intro f s k bit rest hf hs
  have hrun := runSteps_feedItems (flipAt k.val (1#8 <<< bit.val) f.bytes) rest s
  rw [flipAt, List.length_modify, f.length_bytes] at hrun
  refine ⟨_, hrun, ?_⟩
  rw [State.withPending_outputs, State.withPending_mode, State.withPending_index]
  have hwrong := not_carriesChecksum_modify f.length_bytes (carriesChecksum_of_valid hf) (k := k.val) (by simp)
    (f := fun b => b ^^^ 1#8 <<< bit.val) (xor_bit_ne _ bit)
  obtain ⟨hsync, -⟩ := hf
  obtain ⟨tl, hbytes⟩ : ∃ tl, f.bytes = Config.sync :: tl := ⟨_, by rw [← hsync]; rfl⟩
  have hlen : tl.length = 31 := by simpa [hbytes] using f.length_bytes
  rw [hbytes] at hwrong ⊢
  induction k using Fin.cases with
  | zero => exact ⟨feedAll_no_sync hs (xor_bit_ne Config.sync bit) hlen, fun h => absurd rfl h⟩
  | succ j =>
    rw [Fin.val_succ, List.modify_succ_cons] at hwrong ⊢
    obtain ⟨hm, hi, hout⟩ := feedAll_drop hs (by rwa [List.length_modify]) hwrong
    exact ⟨hout, fun _ => ⟨hm, hi⟩⟩

end Sys2Proof.Machine

namespace Sys2Proof.Machine

/-! ### Extraction and the valid-frame round trip (43_extraction.md R110, R111, R114) -/

/-- Settles O25: lane `c` is the word of its two cells. -/
theorem extractLanes : Obligations.ExtractLanes := by
  unfold Obligations.ExtractLanes
  intro m c lo hi hlo hhi
  have hlane := fun m' : Memory => get_extract m' c hlo hhi
  refine ⟨by rw [hlane, toNat_wordOf], fun m' hl hh => ?_⟩
  rw [hlane, hlane, hl, hh]

/-- From Seeking, a frame that starts with the sync marker leaves index and accumulator at their seeking values, be its
checksum right or wrong (41_collecting.md R92, R93). -/
theorem feedAll_frame_restarts {f : Frame} (hsync : f.sync = Config.sync) {s : State} (hs : s.mode = .seeking) :
    (feedAll f.bytes s).index = 0 ∧ (feedAll f.bytes s).acc = Config.ckInit := by
  have hlen : (f.len :: f.ch.toList.flatMap leBytes).length = 29 := by
    rw [List.length_cons, length_flatMap_le, Vector.length_toList]
  obtain ⟨-, hi, hacc, -⟩ := feedAll_collection hs _ hlen (loByte f.cksum) (hiByte f.cksum)
  rw [frameBytes_eq, hsync]
  exact ⟨hi, hacc⟩

/-- Settles O39: the 32 steps feed the frame's bytes, `frame_of` builds a valid frame, and a valid frame gives its
channels on the last byte. -/
theorem validFrameRoundTrip : Obligations.ValidFrameRoundTrip := by
  unfold Obligations.ValidFrameRoundTrip
  intro l c s rest hs
  have hvalid := frameOf_valid l c
  have hrun := runSteps_feedItems (frameOf l c).bytes rest s
  rw [Frame.length_bytes] at hrun
  obtain ⟨hmode, hout⟩ := feedAll_validFrame hvalid hs
  obtain ⟨hindex, hacc⟩ := feedAll_frame_restarts hvalid.1 hs
  refine ⟨_, hrun, ?_, hmode, hindex, hacc, rfl⟩
  rw [State.withPending_outputs, hout, collectionOutputs, List.append_assoc, frameOf]

end Sys2Proof.Machine

namespace Sys2Proof
open Machine

/-! ### Decoding what has been encoded (30_encoding.md R61, R73) -/

/-- The fields of the selection word that `encode` writes, 0 where the row does not look; a `FRAME` has no selection
word. -/
def Instr.encodedSel? : Instr → Option Sel
  | .reset => some { ckOk := false, rst := true, inValid := false, mode := .seeking, index := 0, inByte := 0 }
  | .idle => some { ckOk := false, rst := false, inValid := false, mode := .seeking, index := 0, inByte := 0 }
  | .seekSync b => some { ckOk := false, rst := false, inValid := true, mode := .seeking, index := 0, inByte := b }
  | .seekSkip b => some { ckOk := false, rst := false, inValid := true, mode := .seeking, index := 0, inByte := b }
  | .collectStore i b =>
    some { ckOk := false, rst := false, inValid := true, mode := .collecting, index := i, inByte := b }
  | .collectEmit b => some { ckOk := true, rst := false, inValid := true, mode := .collecting, index := 31, inByte := b }
  | .collectDrop b => some { ckOk := false, rst := false, inValid := true, mode := .collecting, index := 31, inByte := b }
  | .frame _ => none

/-- An operation's `match` with its operands in their fields is the word of those fields. -/
theorem encode_eq_wordBytes {i : Instr} {x : Sel} (h : i.encodedSel? = some x) : encode i = wordBytes x.toWord := by
  cases i with
  | reset | idle => cases h; rfl
  | seekSync | seekSkip | collectStore | collectEmit | collectDrop =>
    cases h; simp [encode, Sel.toWord, Op.pattern, Mode.toBit]
  | frame f => cases h

/-- R67 selects a well-formed operation by the fields its encoding writes. -/
theorem decodeSel_encodedSel {i : Instr} {x : Sel} (h : i.encodedSel? = some x) (hwf : i.wf = true) :
    decodeSel x = i := by
  cases i with
  | reset | idle => cases h; rfl
  | seekSync b =>
    have hb : b = Config.sync := beq_iff_eq.1 hwf
    cases h; simp [decodeSel, hb]
  | seekSkip b =>
    have hb : b ≠ Config.sync := bne_iff_ne.1 hwf
    cases h; simp [decodeSel, hb]
  | collectStore i b =>
    have hi : i.val ≤ 30 := of_decide_eq_true hwf
    cases h; simp [decodeSel, hi]
  | collectEmit b | collectDrop b => cases h; simp [decodeSel]
  | frame f => cases h

theorem decode_toWord (x : Sel) : decode (wordBytes x.toWord) = .ok (decodeSel x) := by
  rw [decode_wordBytes, decodeWord, Sel.ofWord_toWord]

/-- A byte string that is not three bytes long is read as a frame. -/
theorem decode_of_length_ne_three {bs : List Byte} (h : bs.length ≠ 3) :
    decode bs =
      if bs.length ≠ Config.frameLen then .rejected (.notAFormat bs.length)
      else if bs.getD 0 0 ≠ Config.sync then .rejected .noSyncMarker
      else .ok (.frame (Frame.ofBytes bs)) := by
  unfold decode
  split
  · simp at h
  · rfl

theorem decode_bytes {f : Frame} (h : f.wf = true) : decode f.bytes = .ok (.frame f) := by
  have hsync : f.bytes.getD 0 0 = Config.sync := beq_iff_eq.1 h
  rw [decode_of_length_ne_three (by simp), if_neg (by simp), if_neg (not_not_intro hsync), Frame.ofBytes_bytes]

/-- Settles O1: a frame is read back field by field, and an operation's encoding is the word of the fields that
select it. -/
theorem decodeEncodeRoundTrip : Obligations.DecodeEncodeRoundTrip := by
  unfold Obligations.DecodeEncodeRoundTrip
  intro i hwf
  cases i with
  | reset | idle | seekSync | seekSkip | collectStore | collectEmit | collectDrop =>
    rw [encode_eq_wordBytes rfl, decode_toWord, decodeSel_encodedSel rfl hwf]
  | frame f => exact decode_bytes hwf

end Sys2Proof

namespace Sys2Proof.Machine

/-! ### The invariant (10_state.md R25, R29, R36) -/

/-- Settles O30: every step is `step` of the pseudocode on some input, each of whose operations keeps the invariant. -/
theorem everyStepKeepsTheInvariant : Obligations.EveryStepKeepsTheInvariant := fun _ _ => step_inv

/-- Settles O29: the reset state is a Seeking state of the invariant, and what is presented does not matter to it. -/
theorem invariantHoldsAtReset : Obligations.InvariantHoldsAtReset := inv_reset

end Sys2Proof.Machine

namespace Sys2Proof
open Machine

/-! ### Encoding what has been decoded (30_encoding.md R61, R73) -/

theorem decodeSel_wf (x : Sel) : (decodeSel x).wf = true := by
  unfold decodeSel
  split
  · rfl
  split
  · rfl
  cases x.mode with
  | seeking =>
    by_cases hb : x.inByte = Config.sync <;> simp [hb, Instr.wf]
  | collecting =>
    by_cases hi : x.index.val ≤ 30
    · simp [hi, Instr.wf]
    · cases x.ckOk <;> simp [hi, Instr.wf]

/-- An operation with its operands taken from the fields of the selection word. -/
def Op.instr : Op → Sel → Instr
  | .reset, _        => .reset
  | .idle, _         => .idle
  | .seekSync, x     => .seekSync x.inByte
  | .seekSkip, x     => .seekSkip x.inByte
  | .collectStore, x => .collectStore x.index x.inByte
  | .collectEmit, x  => .collectEmit x.inByte
  | .collectDrop, x  => .collectDrop x.inByte

theorem exists_decodeSel_eq_instr (x : Sel) : ∃ o : Op, decodeSel x = o.instr x := by
  unfold decodeSel
  split
  · exact ⟨.reset, rfl⟩
  split
  · exact ⟨.idle, rfl⟩
  cases x.mode with
  | seeking => exact (ite_eq_or_eq ..).elim (⟨.seekSync, ·⟩) (⟨.seekSkip, ·⟩)
  | collecting =>
    refine (ite_eq_or_eq ..).elim (⟨.collectStore, ·⟩) fun h => ?_
    exact (ite_eq_or_eq ..).elim (fun h' => ⟨.collectEmit, h.trans h'⟩) fun h' => ⟨.collectDrop, h.trans h'⟩

@[simp] theorem Op.op?_instr (o : Op) (x : Sel) : (o.instr x).op? = some o := by cases o <;> rfl

theorem decodeWord_of_applies {o : Op} {w : BitVec 17} (h : o.applies w = true) :
    decodeWord w = o.instr (Sel.ofWord w) := by
  obtain ⟨o', ho'⟩ := exists_decodeSel_eq_instr (Sel.ofWord w)
  have hop := op?_decodeWord_of_applies h
  rw [decodeWord, ho', Op.op?_instr, Option.some.injEq] at hop
  rw [decodeWord, ho', hop]

/-- `W[7:0]`, the operand `b` of a row. -/
theorem and_inByte_field (w : BitVec 17) : w &&& 0x000FF#17 = (Sel.ofWord w).inByte.zeroExtend 17 := by
  show _ = (w.extractLsb' 0 8).zeroExtend 17
  apply BitVec.eq_of_getLsbD_eq
  intro i hi
  interval_cases i <;> simp

/-- `W[12:8]`, the operand `i` of COLLECT_STORE. -/
theorem and_index_field (w : BitVec 17) :
    w &&& 0x01F00#17 = (BitVec.ofFin (w := 5) (Sel.ofWord w).index).zeroExtend 17 <<< 8 := by
  show _ = (w.extractLsb' 8 5).zeroExtend 17 <<< 8
  apply BitVec.eq_of_getLsbD_eq
  intro i hi
  interval_cases i <;> simp

/-- The fixed bits `m` of `W`, which are `p`, together with its operand `b`. -/
theorem and_or_inByte_field {w m p : BitVec 17} (h : w &&& m = p) :
    w &&& (m ||| 0x000FF#17) = p ||| (Sel.ofWord w).inByte.zeroExtend 17 := by
  rw [BitVec.and_or_distrib_left, h, and_inByte_field]

/-- The bits a row sees are those it tests, which are its `match`, and its operands. -/
theorem encode_instr_of_applies {o : Op} {w : BitVec 17} (h : o.applies w = true) :
    encode (o.instr (Sel.ofWord w)) = wordBytes (w &&& o.seen) := by
  obtain ⟨hmask, -⟩ : w &&& o.mask = o.pattern ∧ o.cond w = true := by simpa [Op.applies] using h
  suffices hbits : ∃ v, encode (o.instr (Sel.ofWord w)) = wordBytes v ∧ w &&& o.seen = v by
    obtain ⟨v, henc, hseen⟩ := hbits
    rw [henc, hseen]
  cases o with
  | reset | idle => exact ⟨_, rfl, hmask⟩
  | seekSync =>
    have hfixed : w &&& 0x0E000#17 = Op.seekSync.pattern &&& 0x1FF00#17 := by
      rw [← hmask, BitVec.and_assoc]; rfl
    exact ⟨_, rfl, and_or_inByte_field hfixed⟩
  | collectStore =>
    have hfixed : w &&& 0x0FF00#17 = Op.collectStore.pattern |||
        (BitVec.ofFin (w := 5) (Sel.ofWord w).index).zeroExtend 17 <<< 8 := by
      rw [← hmask, ← and_index_field, ← BitVec.and_or_distrib_left]; rfl
    exact ⟨_, rfl, and_or_inByte_field hfixed⟩
  | seekSkip | collectEmit | collectDrop => exact ⟨_, rfl, and_or_inByte_field hmask⟩

/-- Three bytes with bits 23 to 17 zero are those of their selection word. -/
theorem wordBytes_wordOfBytes (b0 b1 : Byte) {b2 : Byte} (h : b2.toNat ≤ 1) :
    wordBytes (wordOfBytes b0 b1 b2) = [b0, b1, b2] := by
  have hb2 : b2 = 0#8 ∨ b2 = 1#8 := by
    rw [← BitVec.toNat_inj, ← BitVec.toNat_inj]; exact Nat.le_one_iff_eq_zero_or_eq_one.1 h
  have hlow : (wordOfBytes b0 b1 b2).extractLsb' 0 8 = b0 := by
    apply BitVec.eq_of_getLsbD_eq
    intro i hi
    interval_cases i <;> simp [wordOfBytes]
  have hmid : (wordOfBytes b0 b1 b2).extractLsb' 8 8 = b1 := by
    apply BitVec.eq_of_getLsbD_eq
    intro i hi
    interval_cases i <;> simp [wordOfBytes]
  have htop : (wordOfBytes b0 b1 b2).extractLsb' 16 8 = b2 := by
    apply BitVec.eq_of_getLsbD_eq
    intro i hi
    rcases hb2 with rfl | rfl <;> interval_cases i <;> simp [wordOfBytes]
  rw [wordBytes, hlow, hmid, htop]

/-- Writing the fields of 32 bytes gives the bytes. -/
theorem Frame.bytes_ofBytes {bs : List Byte} (h : bs.length = 32) : (Frame.ofBytes bs).bytes = bs := by
  have hget (k : Nat) (hk : k < 32) : bs[k]? = some (bs.getD k 0) := by simp [h, hk]
  refine List.ext_getElem? fun k => ?_
  by_cases hk : k < 32
  · rw [hget k hk]
    obtain rfl | rfl | ⟨c, hc⟩ | rfl | rfl :
        k = 0 ∨ k = 1 ∨ (∃ c : Fin 14, k = 2 + 2 * c.val ∨ k = 2 + 2 * c.val + 1) ∨ k = 30 ∨ k = 31 := by
      by_cases hpay : 2 ≤ k ∧ k < 30
      · exact .inr (.inr (.inl ⟨⟨(k - 2) / 2, by omega⟩, by simp only; omega⟩))
      · omega
    · exact Frame.bytes_zero _
    · exact Frame.bytes_one _
    · obtain ⟨hlo, hhi⟩ := (Frame.ofBytes bs).bytes_channel c
      rw [Frame.ofBytes, Frame.get_ofByteAt, loByte_wordOf] at hlo
      rw [Frame.ofBytes, Frame.get_ofByteAt, hiByte_wordOf] at hhi
      obtain rfl | rfl := hc
      · exact hlo
      · exact hhi
    · exact (Frame.bytes_cksum _).1.trans (congrArg some (loByte_wordOf _ _))
    · exact (Frame.bytes_cksum _).2.trans (congrArg some (hiByte_wordOf _ _))
  · rw [List.getElem?_eq_none (by simp; omega), List.getElem?_eq_none (by omega)]

/-- What `decode` accepts, said once: the bytes of a selection word, or those of a well-formed frame. -/
theorem decode_ok_cases {bs : List Byte} {i : Instr} (h : decode bs = .ok i) :
    (∃ w, bs = wordBytes w ∧ i = decodeWord w) ∨ (∃ f : Frame, f.wf = true ∧ bs = f.bytes ∧ i = .frame f) := by
  unfold decode at h
  split at h
  next b0 b1 b2 =>
    split at h
    next htop => exact .inl ⟨_, (wordBytes_wordOfBytes b0 b1 htop).symm, (Decoded.ok.inj h).symm⟩
    next => cases h
  next =>
    split at h
    next => cases h
    next hlen =>
      split at h
      next => cases h
      next hsync =>
        have hbytes := Frame.bytes_ofBytes (not_not.1 hlen)
        exact .inr ⟨_, beq_iff_eq.2 (not_not.1 hsync), hbytes.symm, (Decoded.ok.inj h).symm⟩

/-- Settles O2: a selection word gives the operation of a row that matches it, whose encoding is the bits the row
sees; a frame's bytes are those of its fields. -/
theorem encodeRestoresTheSeenBits : Obligations.EncodeRestoresTheSeenBits := by
  unfold Obligations.EncodeRestoresTheSeenBits
  intro bs i h
  rcases decode_ok_cases h with ⟨w, rfl, rfl⟩ | ⟨f, hwf, rfl, rfl⟩
  · obtain ⟨o, ho⟩ := exists_applies w
    have hop := op?_decodeWord_of_applies ho
    refine ⟨decodeSel_wf _, fun hnone => by simp [hop] at hnone, fun o' ho' => ⟨w, rfl, ?_⟩⟩
    obtain rfl : o = o' := Option.some.inj (hop.symm.trans ho')
    exact ⟨ho, by rw [decodeWord_of_applies ho, encode_instr_of_applies ho]⟩
  · exact ⟨hwf, fun _ => rfl, fun o ho => by simp [Instr.op?] at ho⟩

end Sys2Proof

namespace Sys2Proof.Machine

/-! ### The step and the instruction it runs (30_encoding.md R67, R73) -/

/-- A step on presented inputs performs the operation that R67 selects. -/
theorem step_of_selected {s : State} {inp : Input} {rest : List Item} {i : Instr}
    (h : s.pending = .present inp :: rest) (hsel : decodeSel (selOf s inp) = i) :
    step s = exec i (s.withPending rest) := by
  subst hsel
  have hfetch : fetch s = (decodeSel (selOf s inp), s.withPending rest) := by rw [fetch, h]; rfl
  rw [step, hfetch]

theorem exec_frame (f : Frame) (s : State) : exec (.frame f) s = .next (opFrame f s) := rfl

/-- Settles O5: the bytes of a selection word decode to what R67 selects by its fields, those of a frame to the frame. -/
theorem stepRunsTheDecodedInstruction : Obligations.StepRunsTheDecodedInstruction := by
  unfold Obligations.StepRunsTheDecodedInstruction
  refine fun s => ⟨fun inp rest i h hdec => ?_, fun f rest i h hdec => ?_, fun h => ?_⟩
  · rw [decode_toWord] at hdec
    exact step_of_selected h (Decoded.ok.inj hdec)
  · rcases decode_ok_cases hdec with ⟨w, hbytes, -⟩ | ⟨g, -, hbytes, rfl⟩
    · simpa [wordBytes] using congrArg List.length hbytes
    · obtain rfl : f = g := by rw [← Frame.ofBytes_bytes f, hbytes, Frame.ofBytes_bytes]
      rw [step_of_frame h, exec_frame]
  · rw [step_of_nil h, exec_idle]

/-- Settles O7: the five words are read field by field. -/
theorem writtenOutWordsDecode : Obligations.WrittenOutWordsDecode := by
  unfold Obligations.WrittenOutWordsDecode
  decide

/-! ### Table rows (30_encoding.md R73, assumption log 7) -/

theorem leNat_bytesOfNat (n v : Nat) : leNat (bytesOfNat n v) = v % 256 ^ n := by
  induction n generalizing v with
  | zero => simp [bytesOfNat, leNat, Nat.mod_one]
  | succ n ih => rw [bytesOfNat, leNat, ih, BitVec.toNat_ofNat, pow_succ' 256, Nat.mod_mul]

theorem length_bytesOfNat (n v : Nat) : (bytesOfNat n v).length = n := by
  induction n generalizing v with
  | zero => rfl
  | succ n ih => rw [bytesOfNat, List.length_cons, ih]

theorem leNat_wordBytes (w : BitVec 17) : leNat (wordBytes w) = w.toNat := by
  have := w.isLt
  simp [wordBytes, leNat, Nat.shiftRight_eq_div_pow]
  omega

theorem decode_of_decodeTableWord {nbits w : Nat} {i : Instr} (h : decodeTableWord nbits w = some i) :
    decode (tableBytes nbits w) = .ok i := by
  unfold decodeTableWord at h
  split at h
  next j hdec => rw [hdec, Option.some.inj h]
  next => cases h

/-- A row of the selection table stands for the operation that its 17 bits select. -/
theorem decodeTableWord_stepRow {nbits w : Nat} {i : Instr} (hrow : isStepRow nbits = true)
    (h : decodeTableWord nbits w = some i) : i = decodeWord (BitVec.ofNat 17 (w % 2 ^ nbits)) := by
  have hbytes : tableBytes nbits w = bytesOfNat 3 (w % 2 ^ nbits) := by rw [tableBytes, if_pos hrow]
  rcases decode_ok_cases (decode_of_decodeTableWord h) with ⟨v, hv, rfl⟩ | ⟨f, -, hf, -⟩
  · rw [hbytes] at hv
    have hval : w % 2 ^ nbits % 256 ^ 3 = v.toNat := by rw [← leNat_bytesOfNat, hv, leNat_wordBytes]
    refine congrArg decodeWord (BitVec.eq_of_toNat_eq ?_)
    rw [BitVec.toNat_ofNat]
    have := v.isLt
    omega
  · rw [hbytes] at hf
    simpa [length_bytesOfNat] using congrArg List.length hf

/-- The frame row's word stands for the frame of its 32 bytes. -/
theorem decodeTableWord_frameRow {nbits w : Nat} {i : Instr} (hrow : isStepRow nbits = false)
    (h : decodeTableWord nbits w = some i) : i = .frame (Frame.ofBytes (tableBytes nbits w)) := by
  rcases decode_ok_cases (decode_of_decodeTableWord h) with ⟨v, hv, -⟩ | ⟨f, -, hf, rfl⟩
  · simpa [tableBytes, hrow, length_bytesOfNat, wordBytes] using congrArg List.length hv
  · rw [hf, Frame.ofBytes_bytes]

/-- With `accFor` in the register the comparison comes out as wanted. -/
theorem ckOk_accFor (want : Bool) (s : State) (b : Byte) : ckOk { s with acc := accFor want s b } b = want := by
  unfold accFor
  split
  next h => exact h
  next =>
    cases want with
    | true => exact beq_self_eq_true (rxWord s b)
    | false =>
      have hne : ~~~ (rxWord s b) ≠ rxWord s b := by bv_omega
      exact beq_false_of_ne hne

theorem presentSel_pending (x : Sel) (s : State) :
    (s.presentSel x).pending = .present { rst := x.rst, inValid := x.inValid, inByte := x.inByte } :: s.pending := by
  unfold State.presentSel
  split
  · rfl
  · cases x.mode <;> rfl

theorem presentSel_buf (x : Sel) (s : State) : (s.presentSel x).buf = s.buf := by
  unfold State.presentSel
  split
  · rfl
  · cases x.mode <;> rfl

theorem presentSel_outputs (x : Sel) (s : State) : (s.presentSel x).outputs = s.outputs := by
  unfold State.presentSel
  split
  · rfl
  · cases x.mode <;> rfl

/-- In the completing step the comparison comes out as the selection word says. -/
theorem ckOk_presentSel (ck : Bool) {i : Addr} (hi : 30 < i.val) (b : Byte) (s : State) :
    ckOk (s.presentSel { ckOk := ck, rst := false, inValid := true, mode := .collecting, index := i, inByte := b }) b =
      ck := by
  have hacc : (s.presentSel
      { ckOk := ck, rst := false, inValid := true, mode := .collecting, index := i, inByte := b }).acc = accFor ck s b :=
    if_neg (Nat.not_le_of_lt hi)
  rw [ckOk, rxWord, hacc, presentSel_buf]
  exact ckOk_accFor ck s b

/-- R67 selects in the state that `presentSel` makes what it selects by the given fields. -/
theorem decodeSel_presentSel (x : Sel) (s : State) :
    decodeSel (selOf (s.presentSel x) { rst := x.rst, inValid := x.inValid, inByte := x.inByte }) = decodeSel x := by
  obtain ⟨ck, rst, valid, mode, index, b⟩ := x
  cases rst with
  | true => rfl
  | false =>
    cases valid with
    | false => rfl
    | true =>
      cases mode with
      | seeking => rfl
      | collecting =>
        by_cases hi : index.val ≤ 30
        · simp [decodeSel, selOf, State.presentSel, hi]
        · refine congrArg decodeSel ?_
          rw [selOf, ckOk_presentSel ck (Nat.lt_of_not_le hi)]
          rfl

/-- Settles O6: a selection row's word selects its operation in the state that `presentSel` makes, and the frame row's
word is the frame that is presented. -/
theorem fetchWordIsRunNext : Obligations.FetchWordIsRunNext := by
  unfold Obligations.FetchWordIsRunNext
  intro s nbits w i h
  cases hrow : isStepRow nbits with
  | true =>
    have hplaced : s.withFetchWord nbits w = s.presentSel (Sel.ofWord (BitVec.ofNat 17 (w % 2 ^ nbits))) := by
      rw [State.withFetchWord, State.presentTableWord, if_pos hrow]
    rw [decodeTableWord_stepRow hrow h, hplaced]
    exact ⟨_, step_of_selected (presentSel_pending ..) (decodeSel_presentSel ..), presentSel_buf .., presentSel_outputs ..,
      rfl⟩
  | false =>
    have hplaced : s.withFetchWord nbits w =
        s.withPending (.frame (Frame.ofBytes (tableBytes nbits w)) :: s.pending) := by
      rw [State.withFetchWord, State.presentTableWord, if_neg (by simp [hrow])]; rfl
    rw [decodeTableWord_frameRow hrow h, hplaced]
    exact ⟨s, step_of_frame rfl, rfl, rfl, rfl⟩

end Sys2Proof.Machine

namespace Sys2Proof.Machine

/-! ### Selection (30_encoding.md R67) and the operations' meanings -/

theorem decodeSel_rst {s : State} {inp : Input} (h : inp.rst = true) : decodeSel (selOf s inp) = .reset := by
  simp [decodeSel, selOf, h]

theorem decodeSel_seeking_sync {s : State} (hm : s.mode = .seeking) :
    decodeSel (selOf s (feedInput Config.sync)) = .seekSync Config.sync := by
  simp [decodeSel, selOf, feedInput, hm]

theorem decodeSel_seeking_skip {s : State} (hm : s.mode = .seeking) {b : Byte} (hb : b ≠ Config.sync) :
    decodeSel (selOf s (feedInput b)) = .seekSkip b := by
  simp [decodeSel, selOf, feedInput, hm, hb]

theorem exec_seekSync (b : Byte) (s : State) : exec (.seekSync b) s = .next (opSeekSync b s) := rfl
theorem exec_seekSkip (b : Byte) (s : State) : exec (.seekSkip b) s = .next (opSeekSkip b s) := rfl
theorem exec_collectStore (i : Addr) (b : Byte) (s : State) :
    exec (.collectStore i b) s = .next (opCollectStore i b s) := rfl
theorem exec_collectEmit (b : Byte) (s : State) : exec (.collectEmit b) s = .next (opCollectEmit b s) := rfl
theorem exec_collectDrop (b : Byte) (s : State) : exec (.collectDrop b) s = .next (opCollectDrop b s) := rfl

/-- Every instruction in every state answers a next state. -/
theorem exec_next (i : Instr) (s : State) : ∃ t, exec i s = .next t := by
  cases i with
  | reset | idle | seekSync | seekSkip | collectStore | collectEmit | collectDrop | frame => exact ⟨_, rfl⟩

/-- Settles O8: the laws of SEEK_SYNC field by field, and in Seeking `0x20` selects it. -/
theorem seekSyncStartsACollection : Obligations.SeekSyncStartsACollection := by
  unfold Obligations.SeekSyncStartsACollection
  refine fun s => ⟨⟨_, exec_seekSync .., ?_, fun k hk => ?_, rfl, rfl, ?_, rfl, rfl⟩, fun rest hm h => ?_⟩
  · rw [opSeekSync_buf, Memory.read_write_self]
  · rw [opSeekSync_buf, Memory.read_write_of_ne _ _ hk]
  · rw [opSeekSync_acc]; decide
  · exact step_of_selected h (decodeSel_seeking_sync hm)

/-- Settles O9: SEEK_SKIP only gives a None, any other byte selects it in Seeking, and a run of them is their fold. -/
theorem seekSkipDiscardsTheByte : Obligations.SeekSkipDiscardsTheByte := by
  unfold Obligations.SeekSkipDiscardsTheByte
  refine fun s b hb => ⟨⟨_, exec_seekSkip b s, rfl, rfl, rfl, rfl, rfl, rfl⟩, fun rest hm h => ?_,
    fun bs rest hm hbs => ?_⟩
  · exact step_of_selected h (decodeSel_seeking_skip hm hb)
  · refine ⟨_, runSteps_feedItems bs rest s, ?_⟩
    rw [feedAll_skip hm hbs]
    rfl

/-- Settles O11: the laws of COLLECT_STORE field by field, and in Collecting a byte at an offset up to 30 selects it. -/
theorem collectStoreStoresAndAccumulates : Obligations.CollectStoreStoresAndAccumulates := by
  unfold Obligations.CollectStoreStoresAndAccumulates
  refine fun s i b hi => ⟨⟨_, exec_collectStore i b s, ?_, fun k hk => ?_, fun h29 => ?_, fun h30 => ?_, ?_,
    opCollectStore_mode .., opCollectStore_outputs .., opCollectStore_pending ..⟩, fun rest hm hix h => ?_⟩
  · rw [opCollectStore_buf, Memory.read_write_self]
  · rw [opCollectStore_buf, Memory.read_write_of_ne _ _ hk]
  · rw [opCollectStore_acc, if_pos h29]
  · rw [opCollectStore_acc, if_neg (by omega)]
  · rw [opCollectStore_index, val_index_succ hi]
  · subst hix
    exact step_of_selected h ((decodeSel_collecting hm rfl b).trans (if_pos hi))

/-- Settles O12: the completing byte stands outside every channel, so the message is that of the cells before it. -/
theorem collectEmitEmitsTheChannels : Obligations.CollectEmitEmitsTheChannels := by
  unfold Obligations.CollectEmitEmitsTheChannels
  refine fun s b => ⟨⟨_, extract (s.buf.write 31 b), exec_collectEmit b s, ?_, fun k hk => ?_, fun c lo hi hlo hhi => ?_,
    rfl, rfl, rfl, rfl, rfl⟩, fun rest hm hi hacc h => ?_⟩
  · rw [opCollectEmit_buf, Memory.read_write_self]
  · rw [opCollectEmit_buf, Memory.read_write_of_ne _ _ hk]
  · have hlo31 : lo ≠ 31 := fun e => by simp [e] at hlo; omega
    have hhi31 : hi ≠ 31 := fun e => by simp [e] at hhi; omega
    rw [get_extract _ c hlo hhi, Memory.read_write_of_ne _ _ hlo31, Memory.read_write_of_ne _ _ hhi31]
  · refine step_of_selected h ((decodeSel_collecting hm (congrArg Fin.val hi) b).trans ?_)
    rw [if_neg (by decide), if_pos hacc]

/-- Settles O13: the laws of COLLECT_DROP field by field, and a completing byte that does not match selects it. -/
theorem collectDropIsSilent : Obligations.CollectDropIsSilent := by
  unfold Obligations.CollectDropIsSilent
  refine fun s b => ⟨⟨_, exec_collectDrop b s, ?_, fun k hk => ?_, rfl, rfl, rfl, rfl, rfl⟩,
    fun rest hm hi hacc h => ?_⟩
  · rw [opCollectDrop_buf, Memory.read_write_self]
  · rw [opCollectDrop_buf, Memory.read_write_of_ne _ _ hk]
  · refine step_of_selected h ((decodeSel_collecting hm (congrArg Fin.val hi) b).trans ?_)
    rw [if_neg (by decide), if_neg hacc]

/-- Settles O14: the laws of RESET field by field, and RESET comes before every other row. -/
theorem resetFromEveryState : Obligations.ResetFromEveryState := by
  unfold Obligations.ResetFromEveryState
  refine fun s => ⟨⟨_, exec_reset s, rfl, rfl, Memory.read_nil, rfl, rfl, rfl⟩, fun v b rest h => ?_⟩
  exact step_of_selected h (decodeSel_rst rfl)

/-! ### The writes to `acc` (42_checksum.md R101) -/

theorem decodeSel_ne_frame (x : Sel) (f : Frame) : decodeSel x ≠ .frame f := by
  obtain ⟨o, ho⟩ := exists_decodeSel_eq_instr x
  rw [ho]
  intro h
  cases (Op.op?_instr o x).symm.trans (congrArg Instr.op? h)

/-- Settles O19: the step performs the selected operation, whose law for `acc` is its row of the table. -/
theorem accumulatorWritesAreTheTable : Obligations.AccumulatorWritesAreTheTable := by
  unfold Obligations.AccumulatorWritesAreTheTable
  intro s inp rest h
  have hstep {i : Instr} (hsel : decodeSel (selOf s inp) = i) := step_of_selected h hsel
  cases hsel : decodeSel (selOf s inp) with
  | reset => exact ⟨_, (hstep hsel).trans (exec_reset _), opReset_acc _⟩
  | idle => exact ⟨_, (hstep hsel).trans (exec_idle _), opIdle_acc _⟩
  | seekSync b => exact ⟨_, (hstep hsel).trans (exec_seekSync b _), opSeekSync_acc b _⟩
  | seekSkip b => exact ⟨_, (hstep hsel).trans (exec_seekSkip b _), opSeekSkip_acc b _⟩
  | collectStore i b => exact ⟨_, (hstep hsel).trans (exec_collectStore i b _), opCollectStore_acc i b _⟩
  | collectEmit b => exact ⟨_, (hstep hsel).trans (exec_collectEmit b _), opCollectEmit_acc b _⟩
  | collectDrop b => exact ⟨_, (hstep hsel).trans (exec_collectDrop b _), opCollectDrop_acc b _⟩
  | frame f => exact absurd hsel (decodeSel_ne_frame _ f)

end Sys2Proof.Machine

namespace Sys2Proof.Machine

/-! ### Frames as items (30_encoding.md R61, R71, assumption log 3) -/

@[simp] theorem State.withPending_withPending (p q : List Item) (s : State) :
    (s.withPending p).withPending q = s.withPending q := rfl

theorem stepInputs_withPending (inps : List Input) (s : State) (p : List Item) :
    stepInputs inps (s.withPending p) = (stepInputs inps s).withPending p := by
  induction inps generalizing s with
  | nil => rfl
  | cons inp inps ih =>
    exact (congrArg (stepInputs inps) (stepInput_withPending inp s p)).trans (ih (stepInput inp s))

theorem feedAll_withPending (bs : List Byte) (s : State) (p : List Item) :
    feedAll bs (s.withPending p) = (feedAll bs s).withPending p := by
  rw [← stepInputs_feed, stepInputs_withPending, stepInputs_feed]

/-- Settles O34: a run on presented inputs is the fold of the pseudocode, which reads no further item. -/
theorem stepIsThePseudocode : Obligations.StepIsThePseudocode := by
  unfold Obligations.StepIsThePseudocode
  intro s inps rest
  rw [runSteps_inputItems, stepInputs_withPending]

theorem feedAll_outputs_length (bs : List Byte) (s : State) :
    (feedAll bs s).outputs.length = s.outputs.length + bs.length := by
  obtain ⟨out, hout, hlen, -⟩ := stepInputs_fed (bs.map feedInput) s
  rw [← stepInputs_feed, hout, List.length_append, hlen, List.length_map]

theorem Frame.bytes_eq_cons (f : Frame) : f.bytes = f.sync :: f.bytes.drop 1 := rfl

/-- A `FRAME` item's step is the feed of byte 0, with the other bytes presented next. -/
theorem opFrame_eq (f : Frame) (s : State) :
    opFrame f s = (feed f.sync s).withPending (feedItems (f.bytes.drop 1) ++ s.pending) := feed_withPending ..

/-- The 31 steps after it feed the other bytes. -/
theorem runSteps_opFrame (f : Frame) (s : State) :
    runSteps 31 (opFrame f s) = .next ((feedAll f.bytes s).withPending s.pending) := by
  have hrun := runSteps_feedItems (f.bytes.drop 1) s.pending (feed f.sync s)
  rwa [List.length_drop, Frame.length_bytes, ← opFrame_eq, ← feedAll_cons, ← Frame.bytes_eq_cons] at hrun

/-- Performing the operation that R67 selects for a fed byte is feeding it. -/
theorem exec_decodeSel_feedInput (b : Byte) (p : List Item) (s : State) :
    exec (decodeSel (selOf s (feedInput b))) (s.withPending p) = .next (feed b (s.withPending p)) := by
  have hsel : step (s.withPending (.present (feedInput b) :: p)) =
      exec (decodeSel (selOf s (feedInput b))) (s.withPending p) :=
    step_of_selected rfl rfl
  rw [← hsel, step_feedInput, feed_withPending]

/-- Settles O16: a `FRAME` item's instruction is the feed of its first byte, and the 31 steps after it feed the rest. -/
theorem frameItemIsItsThirtyTwoBytes : Obligations.FrameItemIsItsThirtyTwoBytes := by
  unfold Obligations.FrameItemIsItsThirtyTwoBytes
  refine fun f s => ⟨?_, ?_, fun rest h => ?_, fun l c rest => ?_⟩
  · rw [exec_decodeSel_feedInput]
    rfl
  · obtain ⟨o, ho⟩ := feed_outputs f.sync s
    have hrun := runSteps_feedItems f.bytes s.pending s
    rw [Frame.length_bytes] at hrun
    refine ⟨_, _, o, exec_frame f s, opFrame_pending f s, ?_, runSteps_opFrame f s, hrun, ?_, rfl⟩
    · rw [opFrame_eq, State.withPending_outputs, ho]
    · rw [State.withPending_outputs, feedAll_outputs_length, Frame.length_bytes]
  · rw [step_of_frame h, exec_frame]
  · have hstep := step_of_frame (State.withPending_pending (.frame (frameOf l c) :: rest) s)
    have hscript : runScript [.framel l c] (s.withPending rest) =
        (feedAll (frameOf l c).bytes (s.withPending rest)).withPending rest := by
      simp [runScript, ScriptItem.expand, stepInputs_feed, feedAll_withPending]
    rw [runSteps, hstep, hscript]
    exact runSteps_opFrame (frameOf l c) (s.withPending rest)

/-- From Seeking, the 32 bytes of a frame with the sync marker fill the buffer, return to Seeking and are emitted
exactly when the checksum is right (41_collecting.md R91 to R93). -/
theorem feedAll_frame {f : Frame} (hsync : f.sync = Config.sync) {s : State} (hs : s.mode = .seeking) :
    (feedAll f.bytes s).mode = .seeking ∧ (feedAll f.bytes s).buf.toBytes = f.bytes ∧
    (f.cksum = cksum (f.bytes.take 30) →
      (feedAll f.bytes s).outputs = s.outputs ++ collectionOutputs (some f.ch)) ∧
    (f.cksum ≠ cksum (f.bytes.take 30) → (feedAll f.bytes s).outputs = s.outputs ++ collectionOutputs none) := by
  have hlen : (f.len :: f.ch.toList.flatMap leBytes).length = 29 := by
    rw [List.length_cons, length_flatMap_le, Vector.length_toList]
  have hbytes := frameBytes_eq f
  rw [hsync] at hbytes
  have htake : f.bytes.take 30 = Config.sync :: (f.len :: f.ch.toList.flatMap leBytes) := by
    rw [hbytes, List.take_left' (by rw [List.length_cons, hlen])]
  obtain ⟨hm, -, -, -, hbuf, hemit, hdrop⟩ := feedAll_collection hs _ hlen (loByte f.cksum) (hiByte f.cksum)
  rw [← hbytes] at hm hbuf hemit hdrop
  rw [wordOf_loByte_hiByte, ← htake] at hemit hdrop
  exact ⟨hm, hbuf, fun h => by rw [hemit h.symm, extract_of_bytes hbuf], fun h => hdrop h.symm⟩

/-- Settles O17: the first step is SEEK_SYNC, and the 32 bytes are a whole collection. -/
theorem frameFromSeeking : Obligations.FrameFromSeeking := by
  unfold Obligations.FrameFromSeeking
  intro f s hwf hs
  have hsync : f.sync = Config.sync := beq_iff_eq.1 hwf
  have hfirst : opFrame f s = (opSeekSync Config.sync s).withPending (feedItems (f.bytes.drop 1) ++ s.pending) := by
    rw [opFrame_eq, hsync, feed_seeking_sync hs]
  obtain ⟨hm, hbuf, hemit, hdrop⟩ := feedAll_frame hsync hs
  obtain ⟨hindex, hacc⟩ := feedAll_frame_restarts hsync hs
  refine ⟨_, _, exec_frame f s, ?_, ?_, ?_, ?_, fun k hk => ?_, ?_, opFrame_pending f s, runSteps_opFrame f s, hm, hindex,
    hacc, hbuf, rfl, hemit, hdrop⟩ <;> rw [hfirst]
  · rfl
  · rfl
  · rw [State.withPending_acc, opSeekSync_acc]; decide
  · rw [State.withPending_buf, opSeekSync_buf]
    exact Memory.read_write_self ..
  · rw [State.withPending_buf, opSeekSync_buf, Memory.read_write_of_ne _ _ hk]
  · rfl

/-! ### What every step keeps and gives out (60_exceptions.md R120, 20_memory.md R49, 92_eei_decisions.md D13) -/

/-- Settles O28: every step is `step` of the pseudocode, which is total and keeps the invariant. -/
theorem nothingRaises : Obligations.NothingRaises :=
  ⟨fun s => ⟨_, step_eq_stepInput s, fun hs => stepInput_inv (hs.withPending _) _⟩, exec_next⟩

theorem stepInput_buf_wf {s : State} (h : s.buf.wf = true) (inp : Input) : (stepInput inp s).buf.wf = true := by
  rcases stepInput_cases inp with e | e | e <;> rw [e s]
  · exact Memory.wf_nil
  · exact h
  · cases hm : s.mode with
    | seeking =>
      rw [feed_buf_of_seeking hm]
      split
      · exact Memory.wf_write h _ _
      · exact h
    | collecting =>
      rw [feed_buf_of_collecting hm]
      exact Memory.wf_write h _ _

/-- Settles O32: the stores keep the canonical form, and two canonical lists of the same 32 cells are one list. -/
theorem bufferStaysCanonical : Obligations.BufferStaysCanonical := by
  unfold Obligations.BufferStaysCanonical
  refine ⟨fun s t hs h => ?_, fun m m' hm hm' he => Memory.eq_of_read hm hm' fun a => ?_⟩
  · rw [step_eq_stepInput] at h
    obtain rfl := Host.Outcome.next.inj h
    exact stepInput_buf_wf (s := s.withPending (nextInput s.pending).2) hs _
  · exact Memory.read_of_toBytes (by rw [he, List.getElem?_eq_getElem (by simp), Memory.getElem_toBytes])

/-- Settles O36: every step is `step` of the pseudocode, which gives one output. -/
theorem outputsOnlyGrow : Obligations.OutputsOnlyGrow := by
  unfold Obligations.OutputsOnlyGrow
  intro s t h
  rw [step_eq_stepInput] at h
  obtain rfl := Host.Outcome.next.inj h
  obtain ⟨o, ho, -⟩ := stepInput_progress (nextInput s.pending).1 (s.withPending (nextInput s.pending).2)
  exact ⟨o, ho⟩

/-! ### The message of a step (40_feed_and_seeking.md R81, 60_exceptions.md R122) -/

/-- A byte gives the message of the buffer it completes, exactly when it is the last of a frame whose checksum
validates. -/
theorem feed_output (b : Byte) (s : State) :
    (feed b s).outputs = s.outputs ++
      [if s.mode = .collecting ∧ s.index = 31 ∧ s.acc = wordOf (s.buf.read 30) b then some (extract (s.buf.write 31 b))
        else none] := by
  rcases feed_cases b s with ⟨hm, -, e⟩ | ⟨hm, -, e⟩ | ⟨-, hi, e⟩ | ⟨hm, hi, hc, e⟩ | ⟨-, -, hc, e⟩ <;> rw [e]
  · simp [hm]
  · simp [hm]
  · have hne : s.index ≠ 31 := fun h => by simp [h] at hi
    simp [hne]
  · have hlast : s.index = 31 := Fin.ext hi
    simp [hm, hlast, (ckOk_iff s b).1 hc]
  · have hne : s.acc ≠ wordOf (s.buf.read 30) b := fun h => by simp [(ckOk_iff s b).2 h] at hc
    simp [hne]

/-- A step gives a message exactly when it feeds such a byte. -/
theorem stepInput_output (inp : Input) (s : State) :
    (stepInput inp s).outputs = s.outputs ++
      [if inp.rst = false ∧ inp.inValid = true ∧ s.mode = .collecting ∧ s.index = 31 ∧
          s.acc = wordOf (s.buf.read 30) inp.inByte then some (extract (s.buf.write 31 inp.inByte))
        else none] := by
  rcases stepInput_fed_cases inp with ⟨hr, -, e⟩ | ⟨-, hv, -, e⟩ | ⟨hr, hv, -, e⟩ <;> rw [e s]
  · simp [hr]
  · simp [hv]
  · simp [hr, hv, feed_output]

theorem outPorts_outValid (n : Nat) (o : Option Message) : (outPorts n o).outValid = o.isSome := by
  cases o <;> rfl

/-- Settles O35: the output of the step as `stepInput_output` has it, read through the ports. -/
theorem messageExactlyWhenAFrameValidates : Obligations.MessageExactlyWhenAFrameValidates := by
  unfold Obligations.MessageExactlyWhenAFrameValidates
  intro s inp rest h
  have hout := stepInput_output inp (s.withPending rest)
  refine ⟨_, _, step_of_present h, hout, by simp only [Option.isSome_ite]; rfl, fun m hm => ?_,
    fun n => ⟨outPorts_outValid n _, fun m hm => by rw [hm]; rfl⟩⟩
  obtain ⟨-, hext⟩ := Option.ite_none_right_eq_some.1 hm
  exact (Option.some.inj hext).symm

end Sys2Proof.Machine

namespace Sys2Proof

/-! ### Where the fields of a frame stand in `F` (30_encoding.md R61) -/

theorem leNat_lt (bs : List Byte) : leNat bs < 256 ^ bs.length := by
  have hmod := leNat_mod bs bs.length
  rw [List.take_length] at hmod
  rw [← hmod]
  exact Nat.mod_lt _ (by positivity)

/-- Byte `k` stands in bits `8k+7..8k`. -/
theorem leNat_byte {bs : List Byte} {k : Nat} {b : Byte} (h : bs[k]? = some b) :
    leNat bs / 256 ^ k % 256 = b.toNat := by
  obtain ⟨hk, rfl⟩ := List.getElem?_eq_some_iff.1 h
  have hb := bs[k].isLt
  rw [leNat_div, ← List.getElem_cons_drop hk, leNat]
  omega

/-- Bytes `k` and `k+1`, low byte first, stand in bits `8k+15..8k`. -/
theorem leNat_word {bs : List Byte} {k : Nat} {w : Word} (hlo : bs[k]? = some (loByte w))
    (hhi : bs[k + 1]? = some (hiByte w)) : leNat bs / 256 ^ k % 65536 = w.toNat := by
  have h0 := leNat_byte hlo
  have h1 := leNat_byte hhi
  rw [pow_succ, ← Nat.div_div_eq_div_mul, toNat_hiByte] at h1
  rw [toNat_loByte] at h0
  omega

/-- Settles O27: each field's bytes, where they stand in the frame, as bits of the number. -/
theorem frameFieldPositions : Obligations.FrameFieldPositions := by
  unfold Obligations.FrameFieldPositions
  intro f
  have hlt : leNat f.bytes < 2 ^ 256 := by simpa using leNat_lt f.bytes
  have hpow (k : Nat) : 2 ^ (8 * k) = 256 ^ k := by rw [pow_mul]; norm_num
  refine ⟨f.length_bytes, hlt, ?_, leNat_byte f.bytes_one, fun c => ?_, ?_, fun k b hk => ?_⟩
  · simpa using leNat_byte f.bytes_zero
  · obtain ⟨hlo, hhi⟩ := f.bytes_channel c
    rw [show 16 * c.val + 16 = 8 * (2 + 2 * c.val) by omega, hpow]
    exact leNat_word hlo hhi
  · obtain ⟨hlo, hhi⟩ := f.bytes_cksum
    rw [← leNat_word hlo hhi]
    norm_num
    omega
  · rw [hpow]
    exact leNat_byte hk

end Sys2Proof

namespace Sys2Proof.Machine

/-- Settles O45: the equations of R6, and the lengths and offsets of the model. -/
theorem parametersFitTheModel : Obligations.ParametersFitTheModel := by
  unfold Obligations.ParametersFitTheModel
  refine ⟨Config.consistent, Frame.length_bytes, fun m => ⟨m.length_toBytes, m.length_checksummed⟩, fun c => ⟨rfl, ?_⟩,
    rfl, rfl, rfl⟩
  simp only [WordSlot.high, channelSlot, Config.payOff, Config.ckLen, Fin.val_castSucc]
  omega

/-! ### False lock (70_reset_and_hazards.md R145, R151) -/

/-- A valid frame with a `0x20` at offset 2, where a decoder that misses its first two bytes locks on. -/
def falseLockFrame : Frame := frameOf 0 ((Vector.replicate 14 0).set 0 0x0020)

/-- What of the frame the decoder takes for the rest of a frame whose first byte is that `0x20`. -/
def falseLockTail : List Byte := falseLockFrame.bytes.drop 3

theorem falseLockFrame_bytes : falseLockFrame.bytes = [0x20, 0] ++ Config.sync :: falseLockTail := by decide

theorem length_falseLockTail : falseLockTail.length = 29 := by decide

/-- The next frame's first two bytes stand where the decoder expects the checksum. -/
theorem not_carriesChecksum_falseLock : ¬ CarriesChecksum (Config.sync :: (falseLockTail ++ [0x20, 0])) := by
  unfold CarriesChecksum
  decide

theorem messages_of_nones {s t : State} {n : Nat} (h : t.outputs = s.outputs ++ List.replicate n none) :
    t.messages = s.messages := by
  simp [State.messages, h]

@[simp] theorem State.withPending_messages (p : List Item) (s : State) : (s.withPending p).messages = s.messages := rfl

/-- `n` further frames after the frame whose first two bytes are missed: every 32 bytes are a collection that is
dropped, and the last 30 are too few for one. -/
theorem feedAll_falseLock {s : State} (hs : s.mode = .seeking) (n : Nat) :
    (feedAll (Config.sync :: falseLockTail ++ (List.replicate n falseLockFrame).flatMap Frame.bytes) s).messages =
      s.messages := by
  induction n generalizing s with
  | zero =>
    have hout := feedAll_short hs (bs := Config.sync :: falseLockTail) (by simp [length_falseLockTail])
    rw [List.replicate_zero, List.flatMap_nil, List.append_nil, messages_of_nones hout]
  | succ n ih =>
    have hsplit : Config.sync :: falseLockTail ++ (List.replicate (n + 1) falseLockFrame).flatMap Frame.bytes =
        Config.sync :: (falseLockTail ++ [0x20, 0]) ++
          (Config.sync :: falseLockTail ++ (List.replicate n falseLockFrame).flatMap Frame.bytes) := by
      simp [List.replicate_succ, falseLockFrame_bytes]
    obtain ⟨hm, -, hout⟩ := feedAll_drop hs (by simp [length_falseLockTail]) not_carriesChecksum_falseLock
    rw [hsplit, feedAll_append, ih hm, messages_of_nones hout]

/-- Settles O44: `n + 1` copies of one valid frame, without the first two bytes. -/
theorem noBoundOnResynchronization : Obligations.NoBoundOnResynchronization := by
  unfold Obligations.NoBoundOnResynchronization
  intro n
  have hstream : ((List.replicate (n + 1) falseLockFrame).flatMap Frame.bytes).drop 2 =
      Config.sync :: falseLockTail ++ (List.replicate n falseLockFrame).flatMap Frame.bytes := by
    simp [List.replicate_succ, falseLockFrame_bytes]
  have hrun := runSteps_feedItems
    (((List.replicate (n + 1) falseLockFrame).flatMap Frame.bytes).drop 2) [] State.reset
  rw [List.length_drop, length_flatMap_bytes, List.length_replicate, List.append_nil] at hrun
  refine ⟨List.replicate (n + 1) falseLockFrame, 2, List.length_replicate, fun f hf => ?_, by decide, _, hrun, ?_⟩
  · rw [List.eq_of_mem_replicate hf]
    exact frameOf_valid ..
  · rw [State.withPending_messages, hstream]
    exact feedAll_falseLock (s := State.reset) rfl n

end Sys2Proof.Machine
